-- ==== Sys2Proof/Word.lean ====
section
/-! DEFINITION. The bit strings of the hardware: a byte, the two fields of byte 2, the opcode selector.
Rules R7 to R9 (00_scope.md): every field is an unsigned number, no field is signed. -/

namespace Sys2Proof

/-- One byte of the input buffer (rule R7). `b.getLsbD k` is the spec's `b[k]`. -/
abbrev Byte := BitVec 8

/-- The opcode selector, "the top 6 bits" of byte 1 (rule R82). -/
abbrev OpSel := BitVec 6

/-- ModeField, two bits, extracted and never interpreted (rule R87). -/
abbrev ModeField := BitVec 2

/-- RegField and RmField, three bits each (rules R22 and R87). -/
abbrev RegCode := BitVec 3

/-- The 4-bit number that carries a RegisterPlace on a port (rule R21). -/
abbrev Place := BitVec 4

/-- A window written as one number, `W16 = byte1 * 256 + byte2` (rules R42 and R62): notation, not an access. -/
abbrev W16 := BitVec 16

end Sys2Proof
end

