-- ==== Sys2Proof/Syntax.lean ====
section
/-! DEFINITION. The data model (rules R12, R21, R22) and the one inductive of instructions: one
constructor per row of spec/opcode_table.json. -/

namespace Sys2Proof

/-- Opcode: a closed set with one member (rules R12 and R83). -/
inductive Opcode where
  | mov
deriving DecidableEq, Repr

/-- Direction (rule R84): which of the two register fields names the destination. -/
inductive Direction where
  | regIsDest
  | regIsSource
deriving DecidableEq, Repr

/-- OperandWidth (rule R85): the 8-bit or the 16-bit set of register names. -/
inductive OperandWidth where
  | narrow
  | wide
deriving DecidableEq, Repr

/-- RegisterPlace: exactly sixteen names (rule R21). A name, not a register: no value is held (rule R20). -/
inductive RegisterPlace where
  | al | cl | dl | bl | ah | ch | dh | bh
  | ax | cx | dx | bx | sp | bp | si | di
deriving DecidableEq, Repr

/-- The one exception (rules R170 and R171: a one-constructor enumeration; rule R86: no other cause exists). -/
inductive Cause where
  | unsupportedOpcode
deriving DecidableEq, Repr

/-- DecodedInstruction, the record of rule R22: the mode field is no part of it (decision D24). -/
structure DecodedInstruction where
  mnemonic : Opcode
  destination : RegisterPlace
  source : RegisterPlace
deriving DecidableEq, Repr

/-- An instruction as the window spells it: one constructor per row of spec/opcode_table.json, that is
per accepted value of byte 1. A constructor stands for the fixed bits `d` and `w` of its row; its name is
the row's form at the default polarities (rules R65 and R72). `mode`, `reg` and `rm` are byte 2 (rule R87). -/
inductive Instr where
  /-- Row MOV_RM8_R8, byte 1 with `d = 0`, `w = 0` (rule R122). -/
  | movRm8R8 (mode : ModeField) (reg rm : RegCode)
  /-- Row MOV_RM16_R16, byte 1 with `d = 0`, `w = 1` (rule R123). -/
  | movRm16R16 (mode : ModeField) (reg rm : RegCode)
  /-- Row MOV_R8_RM8, byte 1 with `d = 1`, `w = 0` (rule R124). -/
  | movR8Rm8 (mode : ModeField) (reg rm : RegCode)
  /-- Row MOV_R16_RM16, byte 1 with `d = 1`, `w = 1` (rule R125). -/
  | movR16Rm16 (mode : ModeField) (reg rm : RegCode)
deriving DecidableEq, Repr

end Sys2Proof
end

