-- ==== Sys2Proof/Config.lean ====
section
/-! DEFINITION. The implementation parameters of rule R6. `OPC_MOV`, `POL_D`, `POL_W` and `REGTAB` are fields
of a record of plain data, so that a claim can be made at the default or for every value; their default
values stand in Machine/Defaults.lean. `HEADER_TEXT` and `EOL`, which the spec leaves OPEN (decision D14),
are constants with no body: no proof can see what they are. -/

namespace Sys2Proof

/-- `REGTAB` (rules R6 and R101): eight entries per width, indexed by the 3-bit code. -/
structure RegTab where
  narrow : Vector RegisterPlace 8
  wide : Vector RegisterPlace 8
deriving DecidableEq, Repr

/-- The four configuration constants of rule R6, fixed before reset and never written by the block (rule R29). -/
structure Config where
  /-- `OPC_MOV`, the one recognized opcode selector (decision D1). -/
  opcMov : OpSel
  /-- `POL_D`, the value of the direction bit that means "register field is the destination" (decision D2). -/
  polD : Bool
  /-- `POL_W`, the value of the width bit that selects the 16-bit set (decision D3). -/
  polW : Bool
  /-- `REGTAB` (decision D4). -/
  regTab : RegTab
deriving DecidableEq, Repr

/-- `HEADER_TEXT` (rule R163): OPEN, notes/assumptions/11.md. -/
opaque Config.headerText : String

/-- `EOL` (rule R165): OPEN, notes/assumptions/11.md. -/
opaque Config.eol : String

/-- Whether the last line of the text is terminated (rule R165): OPEN, notes/assumptions/11.md. -/
opaque Config.lastLineTerminated : Bool

/-- How many blank lines follow the header in the rendered text (rule R165): OPEN, notes/assumptions/11.md. -/
opaque Config.blankLinesAfterHeader : Nat

end Sys2Proof
end

