-- ==== Sys2Proof/Machine/Defaults.lean ====
section
/-! DEFINITION. The values the spec decides for the four configuration constants (rule R6, decisions D1 to D4). -/

namespace Sys2Proof.Machine

/-- `OPC_MOV = 0b100010` (rule R83, decision D1). -/
def defaultOpcMov : OpSel := 0b100010#6

/-- `POL_D = 1` (rule R84, decision D2, conflict C1). -/
def defaultPolD : Bool := true

/-- `POL_W = 1` (rule R85, decision D3, conflict C1). -/
def defaultPolW : Bool := true

/-- The table of rule R101 (decision D4, conflict C5). -/
def defaultRegTab : RegTab where
  narrow := #v[.al, .cl, .dl, .bl, .ah, .ch, .dh, .bh]
  wide := #v[.ax, .cx, .dx, .bx, .sp, .bp, .si, .di]

/-- The configuration every vector of 95_test_vectors.md uses unless it says otherwise. -/
def defaultConfig : Config where
  opcMov := defaultOpcMov
  polD := defaultPolD
  polW := defaultPolW
  regTab := defaultRegTab

end Sys2Proof.Machine
end

