-- ==== Sys2Proof/Machine/Places.lean ====
section
/-! DEFINITION. The sixteen register names of rule R21: the set each belongs to, its 3-bit code, its 4-bit
packing and its lowercase text (rule R162). -/

namespace Sys2Proof.Machine

/-- The set a name belongs to: the first eight are Narrow, the last eight Wide (rule R21). -/
def placeWidth (p : RegisterPlace) : OperandWidth :=
  match p with
  | .al | .cl | .dl | .bl | .ah | .ch | .dh | .bh => .narrow
  | .ax | .cx | .dx | .bx | .sp | .bp | .si | .di => .wide

/-- The 3-bit code of a name within its set (table of rule R21). -/
def placeCode (p : RegisterPlace) : RegCode :=
  match p with
  | .al | .ax => 0
  | .cl | .cx => 1
  | .dl | .dx => 2
  | .bl | .bx => 3
  | .ah | .sp => 4
  | .ch | .bp => 5
  | .dh | .si => 6
  | .bh | .di => 7

/-- The width flag of rule R21, 1 for the Wide set. -/
def wideBit (w : OperandWidth) : Bool :=
  match w with
  | .narrow => false
  | .wide => true

/-- `place = 8 * wide + code` (rule R21, decision D15). -/
def packPlace (p : RegisterPlace) : Place :=
  BitVec.ofBool (wideBit (placeWidth p)) ++ placeCode p

/-- `name(place)`, the lowercase name (rules R21 and R162). -/
def placeName (p : RegisterPlace) : String :=
  match p with
  | .al => "al"
  | .cl => "cl"
  | .dl => "dl"
  | .bl => "bl"
  | .ah => "ah"
  | .ch => "ch"
  | .dh => "dh"
  | .bh => "bh"
  | .ax => "ax"
  | .cx => "cx"
  | .dx => "dx"
  | .bx => "bx"
  | .sp => "sp"
  | .bp => "bp"
  | .si => "si"
  | .di => "di"

end Sys2Proof.Machine
end

