-- ==== Sys2Proof/WellFormed.lean ====
section
/-! DEFINITION. The checks on terms. An instruction has no ill-formed term: every value of `mode`, `reg` and
`rm` is legal (rule R67: nothing is reserved) and the field types admit no others. What can be ill-formed is a
record whose operands come from two register sets (rule R63: one width bit serves both) and a configuration
whose register table is no bijection onto the names of its width (rule R102). -/

namespace Sys2Proof

/-- Rule R67: with an accepted byte 1 no value of byte 2 is illegal, so every term is well formed. -/
def Instr.wellFormed (i : Instr) : Bool :=
  match i with
  | .movRm8R8 _ _ _ => true
  | .movRm16R16 _ _ _ => true
  | .movR8Rm8 _ _ _ => true
  | .movR16Rm16 _ _ _ => true

/-- Rule R63: "Both operands always have the same width". -/
def DecodedInstruction.wellFormed (r : DecodedInstruction) : Bool :=
  Machine.placeWidth r.destination == Machine.placeWidth r.source

/-- A row of the table holds each name of its width once (rule R102). -/
def RegTab.rowWellFormed (w : OperandWidth) (row : Vector RegisterPlace 8) : Bool :=
  row.toList.all (fun p => Machine.placeWidth p == w) && decide row.toList.Nodup

/-- Rule R102: for each width a bijection from the eight codes onto the eight names of that width. -/
def RegTab.wellFormed (t : RegTab) : Bool :=
  RegTab.rowWellFormed .narrow t.narrow && RegTab.rowWellFormed .wide t.wide

/-- A configuration is well formed when its register table is: any selector and any polarities are admitted. -/
def Config.wellFormed (c : Config) : Bool :=
  c.regTab.wellFormed

end Sys2Proof
end

