-- ==== Sys2Proof/Decode.lean ====
section
/-! DEFINITION. From bytes to an instruction and back: the bit splitter, the two byte decoders (rules R80 to
R88), the decoder, total on any bytes and rejecting by name, and after it the encoder. -/

namespace Sys2Proof

/-! ### BitFieldExtractor (rule R80) -/

/-- `msb(b, i) = b[7 - i]`, element `i` of the source's numbering (rule R8). -/
def msb (b : Byte) (i : Nat) : Bool := b.getLsbD (7 - i)

/-- The ordered sequence of a byte's eight bits, most significant first (rule R80). -/
def bitFieldExtractor (b : Byte) : List Bool :=
  [msb b 0, msb b 1, msb b 2, msb b 3, msb b 4, msb b 5, msb b 6, msb b 7]

/-! ### FirstByteDecoder (rules R81 to R86) -/

/-- `byte1[7:2]` (rule R82). -/
def opsel (b1 : Byte) : OpSel := b1.extractLsb' 2 6

/-- `byte1[1]`, the direction bit (rule R84). -/
def directionBit (b1 : Byte) : Bool := b1.getLsbD 1

/-- `byte1[0]`, the width bit (rule R85). -/
def widthBit (b1 : Byte) : Bool := b1.getLsbD 0

/-- Rule R84: RegIsDest exactly when the bit equals `POL_D`; total (rule R86). -/
def directionOf (cfg : Config) (d : Bool) : Direction :=
  if d = cfg.polD then .regIsDest else .regIsSource

/-- Rule R85: Wide exactly when the bit equals `POL_W`; total (rule R86). -/
def widthOf (cfg : Config) (w : Bool) : OperandWidth :=
  if w = cfg.polW then .wide else .narrow

/-- FirstByteDecoder (rule R81): the triple, or the condition UnsupportedOpcode. -/
def firstByteDecoder (cfg : Config) (b1 : Byte) : Except Cause (Opcode × Direction × OperandWidth) :=
  if opsel b1 = cfg.opcMov then
    .ok (.mov, directionOf cfg (directionBit b1), widthOf cfg (widthBit b1))
  else
    .error .unsupportedOpcode

/-! ### SecondByteDecoder (rules R87 and R88) -/

/-- `byte2[7:6]` (rule R87). -/
def modeField (b2 : Byte) : ModeField := b2.extractLsb' 6 2

/-- `byte2[5:3]` (rule R87). -/
def regField (b2 : Byte) : RegCode := b2.extractLsb' 3 3

/-- `byte2[2:0]` (rule R87). -/
def rmField (b2 : Byte) : RegCode := b2.extractLsb' 0 3

/-- SecondByteDecoder (rule R87), total. -/
def secondByteDecoder (b2 : Byte) : ModeField × RegCode × RegCode :=
  (modeField b2, regField b2, rmField b2)

/-! ### The decoder -/

/-- The row of the opcode table that the two flag bits select (rule R65). -/
def rowOf (d w : Bool) (mode : ModeField) (reg rm : RegCode) : Instr :=
  match d, w with
  | false, false => .movRm8R8 mode reg rm
  | false, true => .movRm16R16 mode reg rm
  | true, false => .movR8Rm8 mode reg rm
  | true, true => .movR16Rm16 mode reg rm

/-- One window read as an instruction, or the condition UnsupportedOpcode (rules R64, R66 and R72). -/
def decodeWindow (cfg : Config) (b1 b2 : Byte) : Except Cause Instr :=
  if opsel b1 = cfg.opcMov then
    .ok (rowOf (directionBit b1) (widthBit b1) (modeField b2) (regField b2) (rmField b2))
  else
    .error .unsupportedOpcode

/-- Why bytes are no instruction. -/
inductive DecodeError where
  /-- Byte 1 fails the opcode match (rule R83). -/
  | unsupportedOpcode
  /-- Fewer than two bytes: no window (rules R43 and R144); the sequencer drops them without an error. -/
  | incompletePair
deriving DecidableEq, Repr

/-- Decode the first window of any bytes, with the bytes after it (rule R60: exactly two bytes are consumed). -/
def decode (cfg : Config) (bytes : List Byte) : Except DecodeError (Instr × List Byte) :=
  match bytes with
  | b1 :: b2 :: rest =>
    match decodeWindow cfg b1 b2 with
    | .ok i => .ok (i, rest)
    | .error .unsupportedOpcode => .error .unsupportedOpcode
  | _ => .error .incompletePair

/-! ### The encoder -/

/-- Byte 1 of rule R61: `opsel`, `d`, `w` from the most significant end. -/
def encodeFirst (cfg : Config) (d w : Bool) : Byte :=
  cfg.opcMov ++ BitVec.ofBool d ++ BitVec.ofBool w

/-- Byte 2 of rule R61: `mode`, `reg`, `rm` from the most significant end. -/
def encodeSecond (mode : ModeField) (reg rm : RegCode) : Byte :=
  mode ++ reg ++ rm

/-- The two bytes of an instruction, byte 1 first (rules R42 and R61). This inverts the decoder on `Instr`,
which keeps every bit of the window. It is no inverse on DecodedInstruction: rule R70 says that none exists. -/
def encode (cfg : Config) (i : Instr) : List Byte :=
  match i with
  | .movRm8R8 mode reg rm => [encodeFirst cfg false false, encodeSecond mode reg rm]
  | .movRm16R16 mode reg rm => [encodeFirst cfg false true, encodeSecond mode reg rm]
  | .movR8Rm8 mode reg rm => [encodeFirst cfg true false, encodeSecond mode reg rm]
  | .movR16Rm16 mode reg rm => [encodeFirst cfg true true, encodeSecond mode reg rm]

/-! ### The opcode table's numbering -/

/-- The `nbits` lowest bits of `w` as one window, the bits above them zero (rule R62). -/
def tableWord (nbits w : Nat) : W16 := BitVec.ofNat 16 (w % 2 ^ nbits)

/-- Byte 1 of a window written as one number: its upper half (rules R42 and R62). -/
def tableFirst (w : W16) : Byte := w.extractLsb' 8 8

/-- Byte 2 of a window written as one number: its lower half (rules R42 and R62). -/
def tableSecond (w : W16) : Byte := w.extractLsb' 0 8

/-- The instruction the decoder reads, at the default configuration, from a window in the numbering of
spec/opcode_table.json: bit 0 is bit 0 of `W16 = byte1 * 256 + byte2`, so byte 1 is bits 15 to 8. -/
def decodeTableWord (nbits w : Nat) : Option Instr :=
  match decode Machine.defaultConfig [tableFirst (tableWord nbits w), tableSecond (tableWord nbits w)] with
  | .ok (i, _) => some i
  | .error _ => none

end Sys2Proof
end

