-- ==== Sys2Proof/Machine/Operands.lean ====
section
/-! DEFINITION. The operands of a MOV: the register field resolver (rules R100 to R105), the operand-order
assembler (rules R110 to R114), and the decode datapath that chains the four stages (rules R120 and R121). -/

namespace Sys2Proof.Machine

/-- RegisterResolver: `resolve(width, code) = REGTAB(width, code)`, total (rules R100 and R103). -/
def resolve (cfg : Config) (width : OperandWidth) (code : RegCode) : RegisterPlace :=
  match width with
  | .narrow => cfg.regTab.narrow[code.toNat]'(code.isLt)
  | .wide => cfg.regTab.wide[code.toNat]'(code.isLt)

/-- InstructionAssembler: the (destination, source) pair (rule R110). -/
def assemble (regPlace rmPlace : RegisterPlace) (direction : Direction) : RegisterPlace × RegisterPlace :=
  match direction with
  | .regIsDest => (regPlace, rmPlace)
  | .regIsSource => (rmPlace, regPlace)

/-- The record of an instruction with flag bits `d` and `w` (rules R63 and R113): resolve both fields at the one
width, order the two places, put the opcode's identity before them. The mode takes no part (rule R67). -/
def recordOf (cfg : Config) (d w : Bool) (reg rm : RegCode) : DecodedInstruction :=
  let width := widthOf cfg w
  let places := assemble (resolve cfg width reg) (resolve cfg width rm) (directionOf cfg d)
  { mnemonic := .mov, destination := places.1, source := places.2 }

/-- The decode datapath, rule R120's `decode_pair`, stage by stage. It is written apart from the decoder and the
meanings of the four forms, so that their agreement is a theorem. -/
def decodePair (cfg : Config) (b1 b2 : Byte) : Except Cause (DecodedInstruction × ModeField) :=
  match firstByteDecoder cfg b1 with
  | .error c => .error c
  | .ok (opcode, direction, width) =>
    let (mode, reg, rm) := secondByteDecoder b2
    let (destination, source) := assemble (resolve cfg width reg) (resolve cfg width rm) direction
    .ok ({ mnemonic := opcode, destination := destination, source := source }, mode)

end Sys2Proof.Machine
end

