-- ==== Sys2Proof/Machine/State.lean ====
section
/-! DEFINITION. The state of the machine (rule R140), the parameters of a run that it carries (rules R6 and
R27), the ways a step can stop, and the state after reset. -/

namespace Sys2Proof.Machine

/-- The three values of `status` (rule R24). -/
inductive Status where
  /-- The sequencer may take a step. -/
  | run
  /-- The buffer is exhausted: the final state of a good run. -/
  | done
  /-- An UnsupportedOpcode was raised: sticky, left by reset only (rule R175). -/
  | fault
deriving DecidableEq, Repr

/-- The input buffer as (offset, byte) pairs in one canonical form (notes/assumptions/2.md). -/
abbrev Memory := List Host.Cell

/-- Why the machine stands still with a fault. -/
inductive Fault where
  /-- Raised by `step` in the status FAULT, where no step is enabled (rules R145 and R175): the block has halted
  on an UnsupportedOpcode and waits for reset. It is the spec's own stop. Safe: the model goes on nowhere where
  the hardware would (notes/assumptions/5.md). -/
  | unsupportedOpcode
deriving DecidableEq, Repr

/-- Why a step has no meaning. -/
inductive Refusal where
  /-- Raised by an arm of `exec` for an instruction with no meaning yet: no arm of this model does. Safe. -/
  | notModelled (mnemonic : String)
  /-- Raised by `step` in the status DONE, where no step is enabled (rule R145): the run is over, nothing is left
  to decode. Safe: the block holds its state until reset (rule R184, notes/assumptions/5.md). -/
  | runEnded
deriving DecidableEq, Repr

/-- The machine: the four variables of rule R140 and, under them, the parameters of the run, which no step
changes (rules R6, R27 and R51, notes/assumptions/1.md). -/
structure State where
  /-- The program counter: the offset of byte 1 of the next window (rule R23). Unbounded (decision D8). -/
  pos : Nat
  /-- `status` (rule R24). -/
  status : Status
  /-- `err_offset`: it has a value only while `status = FAULT` (rule R25, decision D22). -/
  errOffset : Option Nat
  /-- `OUT`, the records appended so far, oldest first (rule R26). -/
  out : List DecodedInstruction
  /-- `IN`, the bytes of the input buffer, read-only to the block (rules R27 and R40). -/
  mem : Memory
  /-- `LEN`, the number of bytes in the buffer (rules R6 and R40). -/
  len : Nat
  /-- The configuration constants `OPC_MOV`, `POL_D`, `POL_W` and `REGTAB` (rules R6 and R29). -/
  cfg : Config
deriving DecidableEq, Repr

/-- The machine right after reset (rule R32), with nothing supplied by the host: an empty buffer, the default
constants. `State.start` of Machine/Ops.lean is reset with a buffer supplied (notes/assumptions/3.md). -/
def State.reset : State where
  pos := 0
  status := .run
  errOffset := none
  out := []
  mem := []
  len := 0
  cfg := defaultConfig

end Sys2Proof.Machine
end

