-- ==== Sys2Proof/Machine/Ops.lean ====
section
/-! DEFINITION. The named operations: the input buffer, the fetch of a window, the retirement of a decoded
window, the end of the buffer, taking the one exception, the outcome where no step is enabled, reset and the
start of a run. What the host may do, and when, stands in Machine/HostMoves.lean. -/

namespace Sys2Proof.Machine

/-! ### The input buffer -/

/-- What an offset that the list does not name reads as: the listing of a buffer leaves its zero bytes out
(notes/assumptions/2.md, DESIGN CHOICE). -/
def unlistedByte : Byte := 0

/-- The canonical form: offsets strictly rising, no entry equal to what an unlisted offset reads as. -/
abbrev Memory.wf (m : Memory) : Prop :=
  m.Pairwise (fun c c' => c.1 < c'.1) ∧ ∀ c ∈ m, c.2 ≠ unlistedByte

/-- The byte at an offset. -/
def Memory.read (m : Memory) (a : Nat) : Byte :=
  match m with
  | [] => unlistedByte
  | c :: rest => if c.1 = a then c.2 else Memory.read rest a

/-- The listing with one byte replaced, in canonical form. The block writes no memory (rule R45): this is the
host's placing of a byte before a run (rule R192). -/
def Memory.write (m : Memory) (a : Nat) (v : Byte) : Memory :=
  match m with
  | [] => if v = unlistedByte then [] else [(a, v)]
  | c :: rest =>
    if a < c.1 then (if v = unlistedByte then c :: rest else (a, v) :: c :: rest)
    else if a = c.1 then (if v = unlistedByte then rest else (a, v) :: rest)
    else c :: Memory.write rest a v

/-- The listing of consecutive bytes from an offset on. -/
def Memory.ofBytes (base : Nat) (bytes : List Byte) : Memory :=
  match bytes with
  | [] => []
  | b :: rest =>
    if b = unlistedByte then Memory.ofBytes (base + 1) rest
    else (base, b) :: Memory.ofBytes (base + 1) rest

/-- `MemRead(addr, n)` (rule R41): the bytes at `addr .. addr + n - 1`, defined only when `addr + n <= LEN`; a read
outside the buffer is no read at all (U11 of 93_implementation_defined.md). -/
def State.memRead (s : State) (addr n : Nat) : Option (List Byte) :=
  if addr + n ≤ s.len then some ((List.range n).map (fun i => Memory.read s.mem (addr + i))) else none

/-- `MemRead(addr, 1)` with the proof that the offset exists: out-of-range reads cannot be written (rule R41). -/
def State.fetchByte (s : State) (addr : Nat) (_inRange : addr + 1 ≤ s.len) : Byte := Memory.read s.mem addr

/-- The whole buffer as the host supplied it: `IN[0], ..., IN[LEN - 1]`. -/
def State.buffer (s : State) : List Byte := (List.range s.len).map (Memory.read s.mem)

/-- The canonical form of a state's buffer: the listing's, with no entry outside the buffer (rule R46). -/
abbrev State.memWf (s : State) : Prop := Memory.wf s.mem ∧ ∀ c ∈ s.mem, c.1 < s.len

/-! ### One window -/

/-- Fetch (rules R140 and R141): the window at `pos`, or nothing when fewer than two bytes remain. The test comes
first, so a lone trailing byte is not read (rules R144 and R173). -/
def fetchWindow (s : State) : Option (Byte × Byte) :=
  if h : s.pos + 2 ≤ s.len then
    some (s.fetchByte s.pos (Nat.le_trans (Nat.le_succ _) h), s.fetchByte (s.pos + 1) h)
  else none

/-- Successful decode (rule R142): append the record, advance by two; nothing else changes. -/
def retire (r : DecodedInstruction) (s : State) : State :=
  { s with out := s.out ++ [r], pos := s.pos + 2 }

/-- End of the buffer (rule R144): `status <- DONE`, nothing else changes. -/
def endOfBuffer (s : State) : State := { s with status := .done }

/-- Taking the one exception (rule R174): `status <- FAULT`, `err_offset <- pos`, nothing else changes. There is no
handler; control goes nowhere (rule R174) and there is no return from it but reset (rule R176, `State.restart`). -/
def raiseUnsupportedOpcode (s : State) : State :=
  { s with status := .fault, errOffset := some s.pos }

/-- What `step` answers in DONE, where no step is enabled (rule R145). -/
def doneOutcome (_ : State) : Host.Outcome State Fault Refusal := .refused .runEnded

/-- What `step` answers in FAULT, where no step is enabled (rules R145 and R175). -/
def faultOutcome (_ : State) : Host.Outcome State Fault Refusal := .fault .unsupportedOpcode

/-! ### Reset and the start of a run -/

/-- Reset (rules R32 and R190): the four variables at their start-of-run values; the buffer and the constants are
not changed by reset. The only way out of DONE and FAULT (rule R176). -/
def State.restart (s : State) : State :=
  { s with pos := 0, status := .run, errOffset := none, out := [] }

/-- The first state of a run (rules R190 to R193): the state after reset, with the constants fixed and the buffer and
its length supplied before reset was released. It is no change to a run that goes on: it takes no state. -/
def State.start (cfg : Config) (bytes : List Byte) : State :=
  { State.reset with mem := Memory.ofBytes 0 bytes, len := bytes.length, cfg := cfg }

end Sys2Proof.Machine
end

