-- ==== Sys2Proof/Machine/Mov.lean ====
section
/-! DEFINITION. The meanings of the four forms of MOV (43_mov.md). The block decodes MOV and does not execute it
(rule R4 (g)): the effect of an instruction is that its record is appended to `OUT` and `pos` advances by two
(rule R142). Direction and width come from the form's two flag bits and the polarities (rule R126); the mode
takes no part (rule R67) and is presented on the output port only (`outPort`). -/

namespace Sys2Proof.Machine

/-- MOV m8, r8, byte 1 with `d = 0`, `w = 0` (rule R122): at the default polarities destination `N(rm)`, source `N(reg)`. -/
def execMovRm8R8 (_mode : ModeField) (reg rm : RegCode) (s : State) : Host.Outcome State Fault Refusal :=
  .next (retire (recordOf s.cfg false false reg rm) s)

/-- MOV m16, r16, byte 1 with `d = 0`, `w = 1` (rule R123): at the default polarities destination `W(rm)`, source `W(reg)`. -/
def execMovRm16R16 (_mode : ModeField) (reg rm : RegCode) (s : State) : Host.Outcome State Fault Refusal :=
  .next (retire (recordOf s.cfg false true reg rm) s)

/-- MOV r8, m8, byte 1 with `d = 1`, `w = 0` (rule R124): at the default polarities destination `N(reg)`, source `N(rm)`. -/
def execMovR8Rm8 (_mode : ModeField) (reg rm : RegCode) (s : State) : Host.Outcome State Fault Refusal :=
  .next (retire (recordOf s.cfg true false reg rm) s)

/-- MOV r16, m16, byte 1 with `d = 1`, `w = 1` (rule R125): at the default polarities destination `W(reg)`, source `W(rm)`. -/
def execMovR16Rm16 (_mode : ModeField) (reg rm : RegCode) (s : State) : Host.Outcome State Fault Refusal :=
  .next (retire (recordOf s.cfg true true reg rm) s)

end Sys2Proof.Machine
end

