-- ==== Sys2Proof/Machine/Dispatch.lean ====
section
/-! DEFINITION. One arm per constructor of Instr, each a direct call of that form's own meaning. -/

namespace Sys2Proof.Machine

def exec (i : Instr) (s : State) : Host.Outcome State Fault Refusal :=
  match i with
  | .movRm8R8 mode reg rm => Sys2Proof.Machine.execMovRm8R8 mode reg rm s
  | .movRm16R16 mode reg rm => Sys2Proof.Machine.execMovRm16R16 mode reg rm s
  | .movR8Rm8 mode reg rm => Sys2Proof.Machine.execMovR8Rm8 mode reg rm s
  | .movR16Rm16 mode reg rm => Sys2Proof.Machine.execMovR16Rm16 mode reg rm s

end Sys2Proof.Machine
end

