-- ==== Sys2Proof/Machine/Step.lean ====
section
/-! DEFINITION. The step of rule R140, and how the host places one instruction for it. -/

namespace Sys2Proof.Machine

/-- One step (rules R140 to R145): in RUN, the end-of-buffer test, then the fetch, then the decode and the decoded
instruction's effect or the exception; in DONE and FAULT no step is enabled. -/
def step (s : State) : Host.Outcome State Fault Refusal :=
  match s.status with
  | .run =>
    match fetchWindow s with
    | none => .next (endOfBuffer s)
    | some (b1, b2) =>
      match decodeWindow s.cfg b1 b2 with
      | .ok i => exec i s
      | .error .unsupportedOpcode => .next (raiseUnsupportedOpcode s)
  | .done => doneOutcome s
  | .fault => faultOutcome s

/-- The state with one window stored where the next step fetches: the window's two bytes at `pos` and `pos + 1`, a buffer
long enough to hold them, and the status in which a step is enabled. It is a device of the one who checks the model, no
move of the host (`HostMove` has none like it) and part of no run: it names a state of another run, over another buffer
(notes/assumptions/3.md). Of the reset state it is the start of a run (`withFetchWord_reset`). -/
def State.withFetchWord (s : State) (nbits w : Nat) : State :=
  { s with
    mem := Memory.write (Memory.write s.mem s.pos (tableFirst (tableWord nbits w))) (s.pos + 1)
      (tableSecond (tableWord nbits w))
    len := max s.len (s.pos + 2)
    status := .run
    errOffset := none }

end Sys2Proof.Machine
end

