-- ==== Sys2Proof/Machine/Flags.lean ====
section
/-! DEFINITION. The hardware has no flag and no condition code (rule R28): no rule sets, clears or reads one. What
plays their part is read-only to the host: the status outputs of rule R29 and the cause number of rule R171. -/

namespace Sys2Proof.Machine

/-- The cause number of a status port: 0 none, 1 UnsupportedOpcode (rule R171, decision D11). -/
def causeCode (s : State) : Nat :=
  match s.status with
  | .run => 0
  | .done => 0
  | .fault => 1

/-- The bit `match` of the datapath's port (rules R91 and R128): 1 means the opcode selector matched. -/
def matchBit (cfg : Config) (b1 : Byte) : Bool := decide (opsel b1 = cfg.opcMov)

/-- How many instructions have been decoded so far, `pos / 2` (rule R180). -/
def decodedCount (s : State) : Nat := s.pos / 2

/-- Whether a lone trailing byte was dropped, at the end of a run (rule R150): exactly when `LEN = pos + 1`. -/
def trailingByteDropped (s : State) : Bool := decide (s.len = s.pos + 1)

end Sys2Proof.Machine
end

