-- ==== Sys2Proof/Machine/Ports.lean ====
section
/-! DEFINITION. The hardware reading of the block (decisions D5 and D6): the datapath as wires (rules R91, R104,
R114, R126 and R128), the output port of the sequencer (rule R152), and the end-of-buffer test on a counter of
bounded width (rule R146). The wires are written from the port rules, not from the datapath they realise. -/

namespace Sys2Proof.Machine

/-- What the datapath's wires carry when `match = 1` (rule R128); they carry no value otherwise (rule R89). -/
structure WireRecord where
  destination : Place
  source : Place
  mode : ModeField
deriving DecidableEq, Repr

/-- `direction = not (byte1[1] xor POL_D)`, 1 for RegIsDest (rule R91). -/
def directionWire (cfg : Config) (b1 : Byte) : Bool := !(xor (b1.getLsbD 1) cfg.polD)

/-- `width = not (byte1[0] xor POL_W)`, 1 for Wide (rule R91). -/
def widthWire (cfg : Config) (b1 : Byte) : Bool := !(xor (b1.getLsbD 0) cfg.polW)

/-- One resolver as wiring (rule R104): the place is the width flag followed by the code. -/
def resolverWire (wide : Bool) (code : RegCode) : Place := BitVec.ofBool wide ++ code

/-- The datapath as one combinational block (rules R126 and R128): two resolvers, two multiplexers. -/
def datapathWires (cfg : Config) (b1 b2 : Byte) : Option WireRecord :=
  if matchBit cfg b1 then
    let regPlace := resolverWire (widthWire cfg b1) (b2.extractLsb' 3 3)
    let rmPlace := resolverWire (widthWire cfg b1) (b2.extractLsb' 0 3)
    some {
      destination := if directionWire cfg b1 then regPlace else rmPlace
      source := if directionWire cfg b1 then rmPlace else regPlace
      mode := b2.extractLsb' 6 2 }
  else none

/-- A record and its mode as the port packs them (rules R21 and R128). -/
def packRecord (r : DecodedInstruction) (mode : ModeField) : WireRecord where
  destination := packPlace r.destination
  source := packPlace r.source
  mode := mode

/-- The output port of the sequencer during the step from a state (rules R142 and R152): the record with its mode
while a window is decoded (`out_valid`), no value otherwise. The mode is presented here and stored nowhere. -/
def outPort (s : State) : Option (DecodedInstruction × ModeField) :=
  match s.status, fetchWindow s with
  | .run, some (b1, b2) => (decodePair s.cfg b1 b2).toOption
  | _, _ => none

/-- The end-of-buffer test of a realisation whose counter has `n` bits and which carries one more bit into the
addition, so that `pos + 2` cannot wrap (rule R146). -/
def endTestOfWidth (n : Nat) (pos len : BitVec n) : Bool :=
  BitVec.ult (len.setWidth (n + 1)) (pos.setWidth (n + 1) + 2)

end Sys2Proof.Machine
end

