-- ==== Sys2Proof/Machine/HostMoves.lean ====
section
/-! DEFINITION. The host's side of rule R193's table: what it may do and read, and the block and the host together.
While a run goes on the host has one move, reset (rules R177 and R190); it has none that changes the buffer, `LEN` or
the constants in a run, and none that refuses a record. -/

namespace Sys2Proof.Machine

/-- What the host may do (rules R190, R192 and R193). Nothing else: there is no constructor that writes the buffer, the
length or the constants alone (U10), and none that refuses a record. -/
inductive HostMove where
  /-- Reset over the buffer and the constants as they are; a reset during a run abandons it (rule R190). -/
  | reset
  /-- Start a run: `IN`, `LEN` and the constants, then reset, as one move (row "start a run" of rule R193). -/
  | newRun (cfg : Config) (bytes : List Byte)
deriving DecidableEq, Repr

/-- A host's move. Reset is always possible. A new buffer or new constants are possible outside RUN only: the host must
"keep them fixed until `status != RUN`" (rule R193); in RUN the model has no such move (U10, decision D13). -/
def hostMove (m : HostMove) (s : State) : Option State :=
  match m with
  | .reset => some s.restart
  | .newRun cfg bytes =>
    match s.status with
    | .run => none
    | .done => some (State.start cfg bytes)
    | .fault => some (State.start cfg bytes)

/-- The host's "continue" after a fault (rule R176): in FAULT, a new run over `IN[err_offset + 2 ..]`; no move in any
other status. The host joins the two output sequences itself. -/
def State.continueAfterFault (s : State) : Option State :=
  match s.status, s.errOffset with
  | .fault, some e => hostMove (.newRun s.cfg (s.buffer.drop (e + 2))) s
  | _, _ => none

/-- What the host may read, by the row of rule R193's table that the status selects. -/
inductive HostReading where
  /-- During a run: `pos` and the output port (the status is the row itself). -/
  | during (pos : Nat) (port : Option (DecodedInstruction × ModeField))
  /-- At the end DONE: `OUT` and `pos`. -/
  | endDone (out : List DecodedInstruction) (pos : Nat)
  /-- At the end FAULT: `err_offset` and `OUT`. -/
  | endFault (errOffset : Option Nat) (out : List DecodedInstruction)
deriving DecidableEq, Repr

/-- The host's reading of a state (rule R193). -/
def hostReads (s : State) : HostReading :=
  match s.status with
  | .run => .during s.pos (outPort s)
  | .done => .endDone s.out s.pos
  | .fault => .endFault s.errOffset s.out

/-- The block with its host: the records the host has taken, oldest first, over all runs. They have left the block, and
no reset takes them back (rule R190). -/
structure System where
  block : State
  taken : List DecodedInstruction
deriving DecidableEq, Repr

/-- What can happen next: a step of the block, or a move of the host between two steps (notes/assumptions/6.md). -/
inductive Event where
  | step
  | move (m : HostMove)
deriving DecidableEq, Repr

/-- One event. With a step the host takes the record that the output port offers (row "during a run" of rule R193). -/
def System.next (e : Event) (y : System) : Option System :=
  match e with
  | .step =>
    match Sys2Proof.Machine.step y.block with
    | .next t => some { block := t, taken := y.taken ++ ((outPort y.block).map Prod.fst).toList }
    | .fault _ => none
    | .refused _ => none
  | .move m => (hostMove m y.block).map (fun t => { block := t, taken := y.taken })

/-- A sequence of events, each of which must be possible. -/
def System.runEvents (es : List Event) (y : System) : Option System :=
  match es with
  | [] => some y
  | e :: rest =>
    match System.next e y with
    | some z => System.runEvents rest z
    | none => none

end Sys2Proof.Machine
end

