-- ==== Sys2Proof/Machine/Text.lean ====
section
/-! DEFINITION. TextEmitter (rules R160 to R165): outside the hardware, between `OUT` and the line sink. No step
uses it; it gives the lines in which the source's fixtures are written. -/

namespace Sys2Proof.Machine

/-- The mnemonic of the one opcode (rule R162). -/
def opcodeName (o : Opcode) : String :=
  match o with
  | .mov => "mov"

/-- The text line of a record (rule R161): mnemonic, one space, destination, comma, one space, source. -/
def textLine (r : DecodedInstruction) : String :=
  opcodeName r.mnemonic ++ " " ++ placeName r.destination ++ "," ++ " " ++ placeName r.source

/-- The stream of a run as a sequence of lines (rule R164): the header once, then one line per record. The error of
a run that ends in FAULT is no line of it. -/
def textStream (s : State) : List String := Config.headerText :: s.out.map textLine

/-- The rendered text (rule R165): every choice the spec leaves open is a constant with no body. -/
def renderedText (s : State) : String :=
  String.intercalate Config.eol
    (Config.headerText :: List.replicate Config.blankLinesAfterHeader "" ++ s.out.map textLine)
  ++ (if Config.lastLineTerminated then Config.eol else "")

end Sys2Proof.Machine
end

