-- ==== Sys2Proof/Safety.lean ====
section
/-! DEFINITION. What holds of the states of a run (rule R33), and the view of a state that a claim about two runs
compares. -/

namespace Sys2Proof

open Sys2Proof.Machine

/-- The byte of the buffer that a claim speaks of as `IN[a]`; `a` is below `LEN` wherever it is used. -/
def inByte (s : State) (a : Nat) : Byte := Memory.read s.mem a

/-- The invariants of rule R33, one field each, and the canonical form of the buffer. -/
structure Inv (s : State) : Prop where
  /-- R33 (a). -/
  posEven : s.pos % 2 = 0
  /-- R33 (b). -/
  posBound : s.pos ≤ 2 * (s.len / 2)
  /-- R33 (c). -/
  outLength : s.out.length = s.pos / 2
  /-- R33 (d): entry `k` is the datapath's result for window `k`. -/
  outDecoded : ∀ k, k < s.pos / 2 → ∃ r m, s.out[k]? = some r ∧
    decodePair s.cfg (inByte s (2 * k)) (inByte s (2 * k + 1)) = .ok (r, m)
  /-- R33 (d): every decoded window has the recognized selector. -/
  selectorsMatch : ∀ k, k < s.pos / 2 → opsel (inByte s (2 * k)) = s.cfg.opcMov
  /-- R33 (e). -/
  doneAtEnd : s.status = .done → s.pos = 2 * (s.len / 2)
  /-- R33 (f). -/
  faultAtWindow : s.status = .fault →
    s.errOffset = some s.pos ∧ s.pos + 2 ≤ s.len ∧ opsel (inByte s s.pos) ≠ s.cfg.opcMov
  /-- R33 (g). -/
  noErrOffset : s.status ≠ .fault → s.errOffset = none
  /-- The buffer's listing is canonical (notes/assumptions/2.md). -/
  memCanonical : s.memWf

/-- The four state variables of rule R140, without the parameters of the run. -/
structure View where
  pos : Nat
  status : Status
  errOffset : Option Nat
  out : List DecodedInstruction
deriving DecidableEq, Repr

/-- The view of a state. -/
def viewOf (s : State) : View := { pos := s.pos, status := s.status, errOffset := s.errOffset, out := s.out }

/-- The view of an outcome: the reasons of a stop are kept whole. -/
def viewOutcome (o : Host.Outcome State Fault Refusal) : Host.Outcome View Fault Refusal :=
  match o with
  | .next s => .next (viewOf s)
  | .fault f => .fault f
  | .refused r => .refused r

/-- `k` steps of the machine, stopping at the first step that is not enabled. -/
def runFor (k : Nat) (s : State) : Host.Outcome State Fault Refusal := Host.Core.run core k s

/-- The end of a good run (rule R150): DONE and nothing else. -/
def endedWell (s : State) : Bool := decide (s.status = .done)

end Sys2Proof
end

