-- ==== Sys2Proof/Certificates/Slice0/Obligations.lean ====
section
/-! DEFINITION. The statements for the provers, in the order of the spec's files. A docstring names the rule a
statement formalises, or, where it rests on a decision the spec marks as its own, that decision. -/

open Sys2Proof Sys2Proof.Machine

/-! ### Reset and state (10_state.md, 70_reset_and_hazards.md) -/

/-- The reset values of 10_state.md section 7 (the spec's decisions D1 to D4 and D12): the machine after reset, and reset
applied to any state, which leaves the buffer, its length and the constants alone and opens a run whatever the status
was. The empty buffer of `State.reset` is the model's choice (notes/assumptions/3.md). -/
def Obligations.ResetEntersStartOfRun : Prop :=
  (State.reset.pos = 0 ∧ State.reset.status = .run ∧ State.reset.errOffset = none ∧ State.reset.out = [] ∧
    State.reset.mem = [] ∧ State.reset.len = 0 ∧ State.reset.cfg.opcMov = 0b100010#6 ∧
    State.reset.cfg.polD = true ∧ State.reset.cfg.polW = true ∧
    State.reset.cfg.regTab.narrow = #v[.al, .cl, .dl, .bl, .ah, .ch, .dh, .bh] ∧
    State.reset.cfg.regTab.wide = #v[.ax, .cx, .dx, .bx, .sp, .bp, .si, .di]) ∧
  ∀ s : State, s.restart =
    { pos := 0, status := .run, errOffset := none, out := [], mem := s.mem, len := s.len, cfg := s.cfg }

/-- The invariants of 10_state.md section 8 hold at reset. That the buffer of `State.reset` is empty is the model's choice
(notes/assumptions/3.md), and the last of the invariants, the canonical form of the buffer's listing, is the model's own
(notes/assumptions/2.md). -/
def Obligations.ResetMeetsRunInvariants : Prop := Inv State.reset

/-- The invariants of 10_state.md section 8, (a) to (g), with the canonical form of the buffer's listing, which is the
model's own (notes/assumptions/2.md): every step keeps them, from every state that meets them, for every configuration. -/
def Obligations.StepKeepsRunInvariants : Prop :=
  ∀ s t : State, Inv s → step s = .next t → Inv t

/-- Rule R31: the result of a window depends on its two bytes and the constants and on nothing else. Two running states
of any history, with the same constants and the same two bytes at their own `pos`, put out the same. -/
def Obligations.WindowResultDependsOnItsBytesOnly : Prop :=
  ∀ s s' : State, s.status = .run → s'.status = .run → s.cfg = s'.cfg → ∀ b1 b2 : Byte,
    s.memRead s.pos 1 = some [b1] → s.memRead (s.pos + 1) 1 = some [b2] →
    s'.memRead s'.pos 1 = some [b1] → s'.memRead (s'.pos + 1) 1 = some [b2] →
    outPort s = outPort s' ∧
    ∃ t t', step s = .next t ∧ step s' = .next t' ∧ t.status = t'.status ∧
      ∃ l, t.out = s.out ++ l ∧ t'.out = s'.out ++ l

/-- 70_reset_and_hazards.md section 1 and 60_exceptions.md section 4 (decisions D10 and D12): reset of any state with a
canonical buffer (notes/assumptions/2.md), whatever its run had come to, is the start of a fresh run over the bytes it
holds. -/
def Obligations.ResetStartsFreshRunOverBuffer : Prop :=
  ∀ s : State, s.memWf → s.restart = State.start s.cfg s.buffer

/-! ### The input buffer (20_memory.md) -/

/-- 20_memory.md section 1: a supplied buffer reads back byte for byte, in range only, and the start of its run meets
the invariants. How the buffer is listed and how it is supplied are the model's choices (notes/assumptions/2.md and
3.md). -/
def Obligations.SuppliedBufferReadsBack : Prop :=
  ∀ (cfg : Config) (bytes : List Byte),
    (∀ a n, (State.start cfg bytes).memRead a n =
      if a + n ≤ bytes.length then some ((bytes.drop a).take n) else none) ∧
    (State.start cfg bytes).buffer = bytes ∧ Inv (State.start cfg bytes)

/-- Rule R45: the block writes no memory. A step leaves the buffer, its length and the constants as they are, and every
read of the buffer answers as before. -/
def Obligations.StepWritesNoMemory : Prop :=
  ∀ s t : State, step s = .next t →
    t.mem = s.mem ∧ t.len = s.len ∧ t.cfg = s.cfg ∧ ∀ a n, t.memRead a n = s.memRead a n

/-- 20_memory.md section 6: windows are decoded in the order of the buffer and a window does not depend on a later one.
Two buffers with the first `2n` bytes in common run alike for the first `n` steps. -/
def Obligations.PrefixDeterminesFirstWindows : Prop :=
  ∀ (cfg : Config) (p x y : List Byte) (n : Nat), p.length = 2 * n → ∀ k, k ≤ n →
    viewOutcome (runFor k (State.start cfg (p ++ x))) = viewOutcome (runFor k (State.start cfg (p ++ y)))

/-! ### Encoding (30_encoding.md) -/

/-- Rule R60: two bytes, whatever they hold. The decoder takes exactly two of the bytes it is given, and a step that
stays in RUN advances by exactly two. What the decoder answers on fewer bytes is `ShortInputIsIncompletePair`. -/
def Obligations.InstructionsAreTwoBytes : Prop :=
  (∀ (cfg : Config) (bytes : List Byte) (i : Instr) (rest : List Byte),
    decode cfg bytes = .ok (i, rest) → rest = bytes.drop 2 ∧ bytes.length = rest.length + 2) ∧
  (∀ s t : State, step s = .next t → t.status = .run → t.pos = s.pos + 2)

/-- The decoder answers `incompletePair` exactly on fewer than two bytes, whatever the byte is. That answer is the model's
own (notes/assumptions/17.md) and no exception of the machine: 20_memory.md section 3 has the block drop a lone byte. -/
def Obligations.ShortInputIsIncompletePair : Prop :=
  ∀ (cfg : Config) (bytes : List Byte), decode cfg bytes = .error .incompletePair ↔ bytes.length < 2

/-- 30_encoding.md sections 1 and 3 at the default selector (decision D1): the windows that decode are those with byte 1
`0x88` to `0x8B`, and as numbers those with `W16 & 0xFC00 = 0x8800`. -/
def Obligations.FourFirstBytesAreAccepted : Prop :=
  (∀ b1 b2 : Byte, (∃ i, decodeWindow defaultConfig b1 b2 = .ok i) ↔
    b1 = 0x88#8 ∨ b1 = 0x89#8 ∨ b1 = 0x8A#8 ∨ b1 = 0x8B#8) ∧
  (∀ w : W16, (∃ i, decodeWindow defaultConfig (tableFirst w) (tableSecond w) = .ok i) ↔
    w &&& 0xFC00#16 = 0x8800#16)

/-- Words written out bit by bit from the encoding of 30_encoding.md section 1 decode to the instruction they stand for
(default selector, decision D1; the numbering of a word is the model's reading, notes/assumptions/10.md): one word of each
row, and four words that are no instruction. -/
def Obligations.WrittenOutWordsDecode : Prop :=
  decodeTableWord 16 0b1000100011100101 = some (.movRm8R8 3 4 5) ∧
  decodeTableWord 16 0b1000100111011000 = some (.movRm16R16 3 3 0) ∧
  decodeTableWord 16 0b1000101000000111 = some (.movR8Rm8 0 0 7) ∧
  decodeTableWord 16 0b1000101101111001 = some (.movR16Rm16 1 7 1) ∧
  decodeTableWord 16 0b1000011111011000 = none ∧
  decodeTableWord 16 0b1000110011011000 = none ∧
  decodeTableWord 16 0b1011100000000001 = none ∧
  decodeTableWord 16 0b0000000010001001 = none

/-- Decoding an encoded instruction gives it back, with every operand at every value and whatever bytes follow, for
every configuration. This is a law of the model's own `Instr` (notes/assumptions/4.md), which keeps every bit of the
window; 30_encoding.md section 4 rules out
such a law for DecodedInstruction (`EveryRecordComesFromEightWindows`). -/
def Obligations.DecodeInvertsEncode : Prop :=
  ∀ (cfg : Config) (i : Instr) (rest : List Byte), i.wellFormed = true →
    decode cfg (encode cfg i ++ rest) = .ok (i, rest)

/-- Encoding a decoded `Instr` gives the bytes back: no bit of a window is lost between the bytes and the syntax. This is a
law of the model's own `Instr` (notes/assumptions/4.md). It does not hold of DecodedInstruction, from which no window can
be told: 30_encoding.md section 4, `EveryRecordComesFromEightWindows`. -/
def Obligations.EncodeInvertsDecode : Prop :=
  ∀ (cfg : Config) (bytes : List Byte) (i : Instr) (rest : List Byte),
    decode cfg bytes = .ok (i, rest) → bytes = encode cfg i ++ rest

/-- Rule R67: nothing is reserved. With an accepted byte 1 every byte 2 decodes, the record depends on `reg` and `rm`
only, so the four modes are treated alike (the mode bits set to `0b11` change nothing), and the rule's four windows
decode to one record. -/
def Obligations.NoByteTwoIsReserved : Prop :=
  (∀ (cfg : Config) (b1 b2 : Byte), opsel b1 = cfg.opcMov →
    ∃ r, decodePair cfg b1 b2 = .ok (r, modeField b2) ∧
      (∀ b2' : Byte, regField b2' = regField b2 → rmField b2' = rmField b2 →
        decodePair cfg b1 b2' = .ok (r, modeField b2')) ∧
      decodePair cfg b1 (b2 ||| 0xC0#8) = .ok (r, 3)) ∧
  ∃ r, decodePair defaultConfig 0x89 0x18 = .ok (r, 0) ∧ decodePair defaultConfig 0x89 0x58 = .ok (r, 1) ∧
    decodePair defaultConfig 0x89 0x98 = .ok (r, 2) ∧ decodePair defaultConfig 0x89 0xD8 = .ok (r, 3)

/-- 30_encoding.md section 4, "How many windows give each result": every record with operands of one width is produced
by exactly eight windows, whatever the polarities and the selector, for every table that is a bijection. -/
def Obligations.EveryRecordComesFromEightWindows : Prop :=
  ∀ cfg : Config, cfg.wellFormed = true → ∀ r : DecodedInstruction, r.wellFormed = true →
    ∃ ws : List (Byte × Byte), ws.length = 8 ∧ ws.Nodup ∧
      ∀ b1 b2 : Byte, (b1, b2) ∈ ws ↔ ∃ m, decodePair cfg b1 b2 = .ok (r, m)

/-! ### The field decoders (40_field_decoders.md) -/

/-- Rule R80: the bit splitter gives a byte's eight bits, most significant first, and both byte decoders take their
fields from that sequence at the positions the source names. -/
def Obligations.BitSplitterIsMostSignificantFirst : Prop :=
  ∀ b : Byte,
    ((bitFieldExtractor b).length = 8 ∧
      ∀ i, i < 8 → (bitFieldExtractor b)[i]? = some (b.getLsbD (7 - i))) ∧
    (∀ j, j < 6 → (bitFieldExtractor b)[j]? = some ((opsel b).getMsbD j)) ∧
    (bitFieldExtractor b)[6]? = some (directionBit b) ∧
    (bitFieldExtractor b)[7]? = some (widthBit b) ∧
    (∀ j, j < 2 → (bitFieldExtractor b)[j]? = some ((modeField b).getMsbD j)) ∧
    (∀ j, j < 3 → (bitFieldExtractor b)[2 + j]? = some ((regField b).getMsbD j)) ∧
    (∀ j, j < 3 → (bitFieldExtractor b)[5 + j]? = some ((rmField b).getMsbD j))

/-- Rules R81 and R82, in numbers: the opcode selector is byte 1 divided by four; the first-byte decoder answers the
triple when it equals `OPC_MOV` and the condition UnsupportedOpcode otherwise. -/
def Obligations.FirstByteDecoderMatchesSelector : Prop :=
  ∀ (cfg : Config) (b1 : Byte),
    (opsel b1).toNat = b1.toNat / 4 ∧
    firstByteDecoder cfg b1 =
      if b1.toNat / 4 = cfg.opcMov.toNat then
        .ok (.mov,
          if b1.toNat.testBit 1 = cfg.polD then .regIsDest else .regIsSource,
          if b1.toNat.testBit 0 = cfg.polW then .wide else .narrow)
      else .error .unsupportedOpcode

/-- 40_field_decoders.md section 3: the three fields of byte 2 are the digits of `mode * 64 + reg * 8 + rm`. -/
def Obligations.SecondByteIsItsThreeFields : Prop :=
  ∀ (b2 : Byte) (mode : ModeField) (reg rm : RegCode),
    secondByteDecoder b2 = (mode, reg, rm) ↔ b2.toNat = mode.toNat * 64 + reg.toNat * 8 + rm.toNat

/-! ### The resolver and the assembler (41_register_resolver.md, 42_operand_assembler.md) -/

/-- Rule R100: the resolver reads the table at (width, code), and is total. -/
def Obligations.ResolverReadsTable : Prop :=
  ∀ (cfg : Config) (code : RegCode),
    cfg.regTab.narrow[code.toNat]? = some (resolve cfg .narrow code) ∧
    cfg.regTab.wide[code.toNat]? = some (resolve cfg .wide code)

/-- The table of 41_register_resolver.md section 1 at the default configuration (the spec's decisions D4 and D15): the
sixteen lookups in code order, and the packing of each. -/
def Obligations.DefaultTableIsCanonical : Prop :=
  ((List.range 8).map (fun k => resolve defaultConfig .narrow (BitVec.ofNat 3 k)) =
    [.al, .cl, .dl, .bl, .ah, .ch, .dh, .bh]) ∧
  ((List.range 8).map (fun k => resolve defaultConfig .wide (BitVec.ofNat 3 k)) =
    [.ax, .cx, .dx, .bx, .sp, .bp, .si, .di]) ∧
  ∀ (w : OperandWidth) (code : RegCode),
    (packPlace (resolve defaultConfig w code)).toNat = (match w with | .narrow => 0 | .wide => 8) + code.toNat

/-- Rule R102: for each width the resolver is a bijection from the eight codes onto the eight names of that width, and
as a function of the pair it is a bijection onto the sixteen names. It holds of every well-formed configuration, and
the default is one. -/
def Obligations.ResolverIsBijective : Prop :=
  defaultConfig.wellFormed = true ∧
  ∀ cfg : Config, cfg.wellFormed = true →
    (∀ w : OperandWidth, Function.Injective (resolve cfg w) ∧
      ∀ p, placeWidth p = w ↔ ∃ code, resolve cfg w code = p) ∧
    Function.Bijective (fun x : OperandWidth × RegCode => resolve cfg x.1 x.2)

/-- Rules R110 and R111: the order of the two places is fixed by the direction, and the operands are always the two
places, one each. -/
def Obligations.AssemblerOrdersByDirection : Prop :=
  ∀ regPlace rmPlace : RegisterPlace,
    assemble regPlace rmPlace .regIsDest = (regPlace, rmPlace) ∧
    assemble regPlace rmPlace .regIsSource = (rmPlace, regPlace) ∧
    ∀ d : Direction, List.Perm [(assemble regPlace rmPlace d).1, (assemble regPlace rmPlace d).2] [regPlace, rmPlace]

/-- Rule R112: equal fields give equal operands, and then the direction bit does not matter; different fields give
different operands, and flipping the direction bit exchanges them. -/
def Obligations.EqualFieldsGiveEqualOperands : Prop :=
  ∀ (cfg : Config) (b1 b2 : Byte) (r : DecodedInstruction) (m : ModeField),
    cfg.wellFormed = true → decodePair cfg b1 b2 = .ok (r, m) →
    (regField b2 = rmField b2 → r.destination = r.source ∧ decodePair cfg (b1 ^^^ 2#8) b2 = .ok (r, m)) ∧
    (regField b2 ≠ rmField b2 → r.destination ≠ r.source ∧
      decodePair cfg (b1 ^^^ 2#8) b2 = .ok ({ r with destination := r.source, source := r.destination }, m))

/-! ### The datapath and the four forms (43_mov.md) -/

/-- Rule R120, in numbers: the whole datapath from two bytes to a record and a mode. -/
def Obligations.DatapathChainsItsStages : Prop :=
  ∀ (cfg : Config) (b1 b2 : Byte),
    let width : OperandWidth := if b1.toNat.testBit 0 = cfg.polW then .wide else .narrow
    let regPlace := resolve cfg width (BitVec.ofNat 3 (b2.toNat / 8))
    let rmPlace := resolve cfg width (BitVec.ofNat 3 b2.toNat)
    decodePair cfg b1 b2 =
      if b1.toNat / 4 ≠ cfg.opcMov.toNat then .error .unsupportedOpcode
      else if b1.toNat.testBit 1 = cfg.polD then .ok (⟨.mov, regPlace, rmPlace⟩, BitVec.ofNat 2 (b2.toNat / 64))
      else .ok (⟨.mov, rmPlace, regPlace⟩, BitVec.ofNat 2 (b2.toNat / 64))

/-- Rule R121: the datapath fails exactly on another selector, whatever byte 2 is, succeeds otherwise, whatever byte 2
is, and its record does not depend on the mode. -/
def Obligations.DatapathFailsOnOtherSelectorsOnly : Prop :=
  ∀ (cfg : Config) (b1 : Byte),
    (opsel b1 ≠ cfg.opcMov → ∀ b2, decodePair cfg b1 b2 = .error .unsupportedOpcode) ∧
    (opsel b1 = cfg.opcMov → ∀ b2, ∃ r, ∀ m : ModeField,
      decodePair cfg b1 (encodeSecond m (regField b2) (rmField b2)) = .ok (r, m) ∧
      decodePair cfg b1 b2 = .ok (r, modeField b2))

/-- 43_mov.md section 2, MOV m8, r8 (row MOV_RM8_R8, `d = 0`, `w = 0`): `exec` completes, its record joins
`OUT`, `pos` advances by two, nothing else changes; at the default configuration (decisions D1 to D4) destination
`N(rm)`, source `N(reg)`. That `exec` acts in every state, DONE and FAULT included, where no step is enabled, is the
model's choice (notes/assumptions/15.md). -/
def Obligations.MovRm8R8AppendsItsRecord : Prop :=
  ∀ (s : State) (mode : ModeField) (reg rm : RegCode),
    let width : OperandWidth := if s.cfg.polW = false then .wide else .narrow
    let destination := resolve s.cfg width (if s.cfg.polD = false then reg else rm)
    let source := resolve s.cfg width (if s.cfg.polD = false then rm else reg)
    exec (.movRm8R8 mode reg rm) s =
      .next { s with out := s.out ++ [⟨.mov, destination, source⟩], pos := s.pos + 2 } ∧
    (s.cfg = defaultConfig → destination = resolve defaultConfig .narrow rm ∧
      source = resolve defaultConfig .narrow reg)

/-- 43_mov.md section 2, MOV m16, r16 (row MOV_RM16_R16, `d = 0`, `w = 1`): as above; at the default configuration
destination `W(rm)`, source `W(reg)`. The states: every one, by the model's choice
(notes/assumptions/15.md). -/
def Obligations.MovRm16R16AppendsItsRecord : Prop :=
  ∀ (s : State) (mode : ModeField) (reg rm : RegCode),
    let width : OperandWidth := if s.cfg.polW = true then .wide else .narrow
    let destination := resolve s.cfg width (if s.cfg.polD = false then reg else rm)
    let source := resolve s.cfg width (if s.cfg.polD = false then rm else reg)
    exec (.movRm16R16 mode reg rm) s =
      .next { s with out := s.out ++ [⟨.mov, destination, source⟩], pos := s.pos + 2 } ∧
    (s.cfg = defaultConfig → destination = resolve defaultConfig .wide rm ∧
      source = resolve defaultConfig .wide reg)

/-- 43_mov.md section 2, MOV r8, m8 (row MOV_R8_RM8, `d = 1`, `w = 0`): as above; at the default configuration
destination `N(reg)`, source `N(rm)`. The states: every one, by the model's choice
(notes/assumptions/15.md). -/
def Obligations.MovR8Rm8AppendsItsRecord : Prop :=
  ∀ (s : State) (mode : ModeField) (reg rm : RegCode),
    let width : OperandWidth := if s.cfg.polW = false then .wide else .narrow
    let destination := resolve s.cfg width (if s.cfg.polD = true then reg else rm)
    let source := resolve s.cfg width (if s.cfg.polD = true then rm else reg)
    exec (.movR8Rm8 mode reg rm) s =
      .next { s with out := s.out ++ [⟨.mov, destination, source⟩], pos := s.pos + 2 } ∧
    (s.cfg = defaultConfig → destination = resolve defaultConfig .narrow reg ∧
      source = resolve defaultConfig .narrow rm)

/-- 43_mov.md section 2, MOV r16, m16 (row MOV_R16_RM16, `d = 1`, `w = 1`): as above; at the default configuration
destination `W(reg)`, source `W(rm)`. The states: every one, by the model's choice
(notes/assumptions/15.md). -/
def Obligations.MovR16Rm16AppendsItsRecord : Prop :=
  ∀ (s : State) (mode : ModeField) (reg rm : RegCode),
    let width : OperandWidth := if s.cfg.polW = true then .wide else .narrow
    let destination := resolve s.cfg width (if s.cfg.polD = true then reg else rm)
    let source := resolve s.cfg width (if s.cfg.polD = true then rm else reg)
    exec (.movR16Rm16 mode reg rm) s =
      .next { s with out := s.out ++ [⟨.mov, destination, source⟩], pos := s.pos + 2 } ∧
    (s.cfg = defaultConfig → destination = resolve defaultConfig .wide reg ∧
      source = resolve defaultConfig .wide rm)

/-- The frame of the four forms: nothing but `pos` and `OUT` changes, `OUT` keeps every earlier record, every byte of
the buffer reads as before. -/
def Obligations.MovLeavesEverythingElse : Prop :=
  ∀ (i : Instr) (s t : State), exec i s = .next t →
    t.status = s.status ∧ t.errOffset = s.errOffset ∧ t.mem = s.mem ∧ t.len = s.len ∧ t.cfg = s.cfg ∧
    (∀ a n, t.memRead a n = s.memRead a n) ∧ s.out <+: t.out ∧ t.out.length = s.out.length + 1 ∧
    t.pos = s.pos + 2

/-- The decoder followed by a form's meaning is the datapath: what the decoded instruction appends is the record that
`decode_pair` gives for the two bytes, and the two reject the same windows. That `exec` acts in every state, whatever the
status, is the model's choice (notes/assumptions/15.md). -/
def Obligations.DecoderAndMeaningAgreeWithDatapath : Prop :=
  ∀ (s : State) (b1 b2 : Byte),
    (∀ i, decodeWindow s.cfg b1 b2 = .ok i → ∃ r m, decodePair s.cfg b1 b2 = .ok (r, m) ∧
      exec i s = .next { s with out := s.out ++ [r], pos := s.pos + 2 }) ∧
    (decodeWindow s.cfg b1 b2 = .error .unsupportedOpcode ↔
      decodePair s.cfg b1 b2 = .error .unsupportedOpcode)

/-- 43_mov.md section 3, laws (a), (b) and (e): both operands have one width; exchanging the two fields and flipping
the direction bit leaves the result unchanged; changing the mode bits changes the mode only. -/
def Obligations.OperandExchangeLaws : Prop :=
  ∀ (cfg : Config) (b1 b2 : Byte) (r : DecodedInstruction) (m : ModeField),
    cfg.wellFormed = true → decodePair cfg b1 b2 = .ok (r, m) →
    r.wellFormed = true ∧
    decodePair cfg (b1 ^^^ 2#8) (encodeSecond m (rmField b2) (regField b2)) = .ok (r, m) ∧
    ∀ m' : ModeField, decodePair cfg b1 (encodeSecond m' (regField b2) (rmField b2)) = .ok (r, m')

/-- 43_mov.md section 3, laws (d) and (f), at the spec's table (decision D4): flipping the width bit moves both operands
to the same codes of the other set; every record with operands of one width is reached. -/
def Obligations.WidthBitMovesBothOperands : Prop :=
  ∀ cfg : Config, cfg.regTab = defaultRegTab →
    (∀ (b1 b2 : Byte) (r : DecodedInstruction) (m : ModeField), decodePair cfg b1 b2 = .ok (r, m) →
      ∃ r', decodePair cfg (b1 ^^^ 1#8) b2 = .ok (r', m) ∧
        placeCode r'.destination = placeCode r.destination ∧ placeCode r'.source = placeCode r.source ∧
        placeWidth r'.destination ≠ placeWidth r.destination ∧ placeWidth r'.source ≠ placeWidth r.source) ∧
    (∀ r : DecodedInstruction, r.wellFormed = true → ∃ b1 b2 m, decodePair cfg b1 b2 = .ok (r, m))

/-- 43_mov.md section 3 with the port rules of the field decoders, the resolver and the assembler (decisions D5, D6, D15):
the datapath's wires carry the packing of what the datapath computes, for every selector and both polarities, and no
value when the match fails. -/
def Obligations.WiresRealiseDatapath : Prop :=
  ∀ (cfg : Config) (b1 b2 : Byte), cfg.regTab = defaultRegTab →
    datapathWires cfg b1 b2 =
      match decodePair cfg b1 b2 with
      | .ok (r, m) => some (packRecord r m)
      | .error _ => none

/-- 95_test_vectors.md section 1.1: the two windows of the source's scenario under all four polarities (decisions D2 and
D3, conflict C1). -/
def Obligations.ScenarioUnderEveryPolarity : Prop :=
  let at' := fun (polD polW : Bool) (b1 : Byte) =>
    decodePair { defaultConfig with polD := polD, polW := polW } b1 0xD8
  at' true true 0x89 = .ok (⟨.mov, .ax, .bx⟩, 3) ∧ at' true true 0x8A = .ok (⟨.mov, .bl, .al⟩, 3) ∧
  at' true false 0x89 = .ok (⟨.mov, .al, .bl⟩, 3) ∧ at' true false 0x8A = .ok (⟨.mov, .bx, .ax⟩, 3) ∧
  at' false true 0x89 = .ok (⟨.mov, .bx, .ax⟩, 3) ∧ at' false true 0x8A = .ok (⟨.mov, .al, .bl⟩, 3) ∧
  at' false false 0x89 = .ok (⟨.mov, .bl, .al⟩, 3) ∧ at' false false 0x8A = .ok (⟨.mov, .ax, .bx⟩, 3)

/-! ### The sequencer (44_stream_sequencer.md) -/

/-- A step runs the decoded instruction: in RUN, with the two bytes at `pos` decoding to `i`, the step is the effect of
`i` on that state, with nothing around it (the effect itself moves past the window). -/
def Obligations.StepRunsDecodedInstruction : Prop :=
  ∀ (s : State) (b1 b2 : Byte) (i : Instr), s.status = .run →
    s.memRead s.pos 1 = some [b1] → s.memRead (s.pos + 1) 1 = some [b2] →
    decodeWindow s.cfg b1 b2 = .ok i → step s = exec i s

/-- Rule R142: on a successful decode the record joins `OUT`, `pos` advances by two, nothing else changes, and the mode
is presented on the output port with the record. -/
def Obligations.SuccessfulDecodeAppendsRecord : Prop :=
  ∀ (s : State) (b1 b2 : Byte) (r : DecodedInstruction) (m : ModeField), s.status = .run →
    s.memRead s.pos 1 = some [b1] → s.memRead (s.pos + 1) 1 = some [b2] →
    decodePair s.cfg b1 b2 = .ok (r, m) →
    step s = .next { s with out := s.out ++ [r], pos := s.pos + 2 } ∧ outPort s = some (r, m)

/-- 44_stream_sequencer.md section 1, unsupported opcode: the exception is taken (`status <- FAULT`, `err_offset <- pos`,
nothing else, so no record), and no later window is ever decoded: no step is enabled afterwards, however many are asked
for. That every later step answers the fault `unsupportedOpcode` is the model's choice (notes/assumptions/5.md), and that
the output port presents nothing is its reading of the port (notes/assumptions/9.md). -/
def Obligations.UnsupportedOpcodeHalts : Prop :=
  ∀ (s : State) (b1 b2 : Byte), s.status = .run →
    s.memRead s.pos 1 = some [b1] → s.memRead (s.pos + 1) 1 = some [b2] →
    decodePair s.cfg b1 b2 = .error .unsupportedOpcode →
    outPort s = none ∧
    ∃ t, step s = .next t ∧ t = { s with status := .fault, errOffset := some s.pos } ∧
      ∀ k, runFor (k + 1) t = .fault .unsupportedOpcode

/-- 44_stream_sequencer.md section 1, end of the buffer (decision D25): with fewer than two bytes left the step sets DONE
and changes nothing else, whatever the leftover byte is. The output port is the model's reading
(notes/assumptions/9.md). -/
def Obligations.EndOfBufferEndsTheRun : Prop :=
  ∀ s : State, s.status = .run → s.len < s.pos + 2 →
    step s = .next { s with status := .done } ∧ outPort s = none

/-- 44_stream_sequencer.md section 1, no step outside RUN (decision D10): in DONE and in FAULT no step is enabled, however
many are asked for, and reset opens a run from either. What a step answers there is the model's choice
(notes/assumptions/5.md). -/
def Obligations.NoStepOutsideRun : Prop :=
  ∀ (s : State) (k : Nat),
    (s.status = .done → runFor (k + 1) s = .refused .runEnded) ∧
    (s.status = .fault → runFor (k + 1) s = .fault .unsupportedOpcode) ∧
    (s.status = .run → ∃ t, step s = .next t) ∧ ∃ t, step s.restart = .next t

/-- Rule R149: the only control flow is an advance by two after a good decode of the window at `pos`, a stop at the end, a
stop at a fault of the window at `pos`; each says all that the step changes. What a decoded `mov` names has no effect on `pos`; any other instruction's bytes, a jump's or a call's among them, are no instruction. -/
def Obligations.ControlFlowIsAdvanceOrStop : Prop :=
  (∀ s t : State, step s = .next t →
    (t.status = .run ∧ ∃ b1 b2 r m, s.memRead s.pos 1 = some [b1] ∧ s.memRead (s.pos + 1) 1 = some [b2] ∧
      decodePair s.cfg b1 b2 = .ok (r, m) ∧ t = { s with out := s.out ++ [r], pos := s.pos + 2 }) ∨
    (s.len < s.pos + 2 ∧ t = { s with status := .done }) ∨
    (∃ b1 b2, s.memRead s.pos 1 = some [b1] ∧ s.memRead (s.pos + 1) 1 = some [b2] ∧
      decodePair s.cfg b1 b2 = .error .unsupportedOpcode ∧
      t = { s with status := .fault, errOffset := some s.pos })) ∧
  (∀ (i : Instr) (s t : State), exec i s = .next t → t.pos = s.pos + 2) ∧
  (∀ (cfg : Config) (b1 b2 : Byte), opsel b1 ≠ cfg.opcMov → decodeWindow cfg b1 b2 = .error .unsupportedOpcode)

/-- Rule R147: from reset, over any buffer, the machine reaches DONE or FAULT within `LEN / 2 + 1` steps, and no run is
longer. -/
def Obligations.RunTerminates : Prop :=
  ∀ (cfg : Config) (bytes : List Byte),
    (∃ k t, k ≤ bytes.length / 2 + 1 ∧ runFor k (State.start cfg bytes) = .next t ∧
      (t.status = .done ∨ t.status = .fault)) ∧
    ∀ k t, runFor k (State.start cfg bytes) = .next t → k ≤ bytes.length / 2 + 1

/-- 44_stream_sequencer.md section 2, closed form of a good run: with every window accepted, the run over any buffer, under
any configuration, is `LEN / 2` decode steps and one last step, and ends in DONE past the last whole window with the
datapath's records in order. -/
def Obligations.GoodRunDecodesWholeBuffer : Prop :=
  ∀ (cfg : Config) (bytes : List Byte),
    (∀ k, k < bytes.length / 2 → opsel (bytes.getD (2 * k) 0) = cfg.opcMov) →
    ∃ out : List DecodedInstruction,
      runFor (bytes.length / 2 + 1) (State.start cfg bytes) =
        .next { State.start cfg bytes with pos := 2 * (bytes.length / 2), status := .done, out := out } ∧
      out.length = bytes.length / 2 ∧
      ∀ k, k < bytes.length / 2 → ∃ r m, out[k]? = some r ∧
        decodePair cfg (bytes.getD (2 * k) 0) (bytes.getD (2 * k + 1) 0) = .ok (r, m)

/-- 44_stream_sequencer.md section 2, closed form of a faulting run, with 60_exceptions.md section 2: the run stops at the
lowest offending window, reports its offset, and keeps the records of the windows before it. That every further step
answers the fault `unsupportedOpcode` is the model's choice (notes/assumptions/5.md). -/
def Obligations.FaultingRunStopsAtFirstBadWindow : Prop :=
  ∀ (cfg : Config) (bytes : List Byte) (f : Nat), f < bytes.length / 2 →
    (∀ k, k < f → opsel (bytes.getD (2 * k) 0) = cfg.opcMov) → opsel (bytes.getD (2 * f) 0) ≠ cfg.opcMov →
    ∃ out : List DecodedInstruction,
      runFor (f + 1) (State.start cfg bytes) =
        .next { State.start cfg bytes with
          pos := 2 * f, status := .fault, errOffset := some (2 * f), out := out } ∧
      out.length = f ∧
      (∀ k, k < f → ∃ r m, out[k]? = some r ∧
        decodePair cfg (bytes.getD (2 * k) 0) (bytes.getD (2 * k + 1) 0) = .ok (r, m)) ∧
      ∀ k, runFor (f + 2 + k) (State.start cfg bytes) = .fault .unsupportedOpcode

/-- 44_stream_sequencer.md section 4, property (c): a trailing odd byte, whatever it is, changes nothing of a run: step
for step the state variables are those of the run without it. -/
def Obligations.TrailingByteChangesNothing : Prop :=
  ∀ (cfg : Config) (bytes : List Byte) (b : Byte), bytes.length % 2 = 0 → ∀ k,
    viewOutcome (runFor k (State.start cfg (bytes ++ [b]))) = viewOutcome (runFor k (State.start cfg bytes))

/-- 44_stream_sequencer.md section 4 and decision D24: what the output port presents during a step is what the step
appends, and nothing is appended when it presents nothing. The port as a function of the state before the step is the
model's reading (notes/assumptions/9.md). -/
def Obligations.OutPortPresentsAppendedRecord : Prop :=
  ∀ s t : State, step s = .next t →
    (∀ r m, outPort s = some (r, m) → t.out = s.out ++ [r]) ∧ (outPort s = none → t.out = s.out)

/-- 44_stream_sequencer.md section 2, a bounded counter (decision D8): with one more bit carried into the addition, the
end-of-buffer test of a counter of any width is the test on numbers, the largest values included. -/
def Obligations.BoundedEndTestNeverWraps : Prop :=
  ∀ (n : Nat) (pos len : BitVec n), 0 < n →
    (endTestOfWidth n pos len = true ↔ len.toNat < pos.toNat + 2)

/-! ### The exception (60_exceptions.md) -/

/-- Rule R172: nothing else is an exception. In RUN a step always answers a next state, and it raises exactly when a
whole window stands at `pos` and its byte 1 fails the match: no mode, no register field, no odd length, no trailing
byte and no empty buffer raises anything. -/
def Obligations.OnlySelectorMismatchRaises : Prop :=
  ∀ s : State, s.status = .run → ∃ t, step s = .next t ∧
    (t.status = .fault ↔ s.pos + 2 ≤ s.len ∧ ∃ b1, s.memRead s.pos 1 = some [b1] ∧ opsel b1 ≠ s.cfg.opcMov)

/-- 60_exceptions.md section 1 and 44_stream_sequencer.md section 4 (decisions D9, D11 and D25): what the status outputs say
in a state that meets the run's invariants. -/
def Obligations.StatusOutputsAgreeWithRun : Prop :=
  ∀ s : State, Inv s →
    (causeCode s = 1 ↔ s.errOffset ≠ none) ∧ (causeCode s = 0 ↔ s.status ≠ .fault) ∧
    (∀ e, s.errOffset = some e → e % 2 = 0 ∧ ∃ b1, s.memRead e 1 = some [b1] ∧ matchBit s.cfg b1 = false) ∧
    decodedCount s = s.out.length ∧
    (s.status = .done → (trailingByteDropped s = true ↔ s.len % 2 = 1))

/-- 60_exceptions.md section 4 (decision D10): the host's "continue" after a fault is the start of a new run over the
bytes after the offending window; without a fault there is nothing to continue from. -/
def Obligations.ContinueStartsAfterOffendingWindow : Prop :=
  ∀ (cfg : Config) (bytes : List Byte) (k : Nat) (t : State), runFor k (State.start cfg bytes) = .next t →
    (t.status = .fault → t.continueAfterFault = some (State.start cfg (bytes.drop (t.pos + 2)))) ∧
    (t.status ≠ .fault → t.continueAfterFault = none)

/-- Rule R195: results come out in order, one at a time, and none after a fault. -/
def Obligations.RecordsComeOutInOrder : Prop :=
  (∀ s t : State, step s = .next t → t.out = s.out ∨ ∃ r, t.out = s.out ++ [r]) ∧
  (∀ (s t : State) (k : Nat), runFor k s = .next t → s.out <+: t.out ∧ t.out.length ≤ s.out.length + k) ∧
  (∀ (s t : State) (k : Nat), s.status = .fault → runFor k s = .next t → t.out = s.out)

/-! ### The text lines (45_text_emitter.md, outside the hardware) -/

/-- Rules R161 and R162: the line of a record, the sixteen names, and that a record can be read back from its line. -/
def Obligations.TextLineNamesBothOperands : Prop :=
  (∀ r : DecodedInstruction,
    textLine r = "mov" ++ " " ++ placeName r.destination ++ "," ++ " " ++ placeName r.source) ∧
  ([RegisterPlace.al, .cl, .dl, .bl, .ah, .ch, .dh, .bh, .ax, .cx, .dx, .bx, .sp, .bp, .si, .di].map placeName =
    ["al", "cl", "dl", "bl", "ah", "ch", "dh", "bh", "ax", "cx", "dx", "bx", "sp", "bp", "si", "di"]) ∧
  ∀ r r' : DecodedInstruction, textLine r = textLine r' → r = r'

/-- 45_text_emitter.md and 44_stream_sequencer.md section 4, properties (a) and (b): the stream of a good run is the header
and one line per pair; of an empty buffer, the header alone. The header's text is left open (notes/assumptions/11.md). -/
def Obligations.StreamHasOneLinePerPair : Prop :=
  (∀ (cfg : Config) (bytes : List Byte) (k : Nat) (t : State),
    runFor k (State.start cfg bytes) = .next t → t.status = .done →
    (textStream t).length = bytes.length / 2 + 1 ∧ (textStream t).head? = some Config.headerText ∧
    ∀ j r, t.out[j]? = some r → (textStream t)[j + 1]? = some (textLine r)) ∧
  ∀ cfg : Config, ∃ t, runFor 1 (State.start cfg []) = .next t ∧ t.status = .done ∧ t.pos = 0 ∧
    textStream t = [Config.headerText]

/-! ### The host (70_reset_and_hazards.md section 2) -/

/-- 70_reset_and_hazards.md section 2 (decisions D12 and D13): the host's moves. Reset is possible in every state; a new
buffer with its length and constants, then reset, outside RUN only, where it gives the first state of the new run; in
RUN there is no such move. -/
def Obligations.HostMovesFollowTheirTable : Prop :=
  ∀ (s : State) (cfg : Config) (bytes : List Byte),
    hostMove .reset s = some s.restart ∧
    (s.status ≠ .run → hostMove (.newRun cfg bytes) s = some (State.start cfg bytes)) ∧
    (s.status = .run → hostMove (.newRun cfg bytes) s = none)

/-- 70_reset_and_hazards.md section 2 and 20_memory.md section 6 (decision D13): no event that happens in RUN, a step of
the block or a move of the host, changes the buffer, its length or the constants, and over any sequence of events only
a new run does. Where a host's move may fall is the model's reading (notes/assumptions/6.md). -/
def Obligations.ParametersChangeBetweenRunsOnly : Prop :=
  (∀ (e : Event) (y z : System), System.next e y = some z → y.block.status = .run →
    z.block.mem = y.block.mem ∧ z.block.len = y.block.len ∧ z.block.cfg = y.block.cfg ∧
    ∀ a n, z.block.memRead a n = y.block.memRead a n) ∧
  ∀ (es : List Event) (y z : System), System.runEvents es y = some z →
    (∀ cfg bytes, Event.move (.newRun cfg bytes) ∉ es) →
    z.block.mem = y.block.mem ∧ z.block.len = y.block.len ∧ z.block.cfg = y.block.cfg

/-- 10_state.md section 8 and 70_reset_and_hazards.md section 1 (decision D12) with the host at work: whatever steps and
host's moves follow one another, the run invariants are kept (the canonical listing among them is the model's own,
notes/assumptions/2.md), the records the host has taken stay taken, and the latest of them are the block's `OUT`, in
order. Where a host's move may fall, and that a step hands over what the port presents, are the model's reading
(notes/assumptions/6.md and 9.md). -/
def Obligations.EventsKeepInvariantsAndTakenRecords : Prop :=
  ∀ (es : List Event) (y z : System), Inv y.block → y.block.out <:+ y.taken → System.runEvents es y = some z →
    Inv z.block ∧ y.taken <+: z.taken ∧ z.block.out <:+ z.taken

/-- 70_reset_and_hazards.md section 2, the column "block gives back" (decisions D5 and D13): what the host reads in each
status of a state that meets the run invariants. The output port is the model's reading (notes/assumptions/9.md). -/
def Obligations.HostIsGivenBackItsResults : Prop :=
  ∀ s : State, Inv s →
    (s.status = .run → hostReads s = .during s.pos (outPort s) ∧
      ∃ t, step s = .next t ∧ t.out = s.out ++ ((outPort s).map Prod.fst).toList) ∧
    (s.status = .done → hostReads s = .endDone s.out s.pos ∧ s.out.length = s.len / 2) ∧
    (s.status = .fault → ∃ e, hostReads s = .endFault (some e) s.out ∧ s.out.length = e / 2 ∧ e + 2 ≤ s.len)

/-! ### The placing of one instruction -/

/-- The model's own interface (notes/assumptions/3.md; a word's numbering, notes/assumptions/10.md): a window placed by `withFetchWord` is what the next step runs, in
any state with a canonical buffer and the default constants, and no other byte of the buffer is changed by placing it. -/
def Obligations.PlacedWindowRunsNext : Prop :=
  ∀ (s : State) (w : Nat), s.memWf → s.cfg = defaultConfig →
    (∀ i, decodeTableWord 16 w = some i → step (s.withFetchWord 16 w) = exec i (s.withFetchWord 16 w)) ∧
    (decodeTableWord 16 w = none →
      step (s.withFetchWord 16 w) = .next (raiseUnsupportedOpcode (s.withFetchWord 16 w))) ∧
    (∀ a, a ≠ s.pos → a ≠ s.pos + 1 → a < s.len → (s.withFetchWord 16 w).memRead a 1 = s.memRead a 1)
end

