-- ==== Sys2Proof/Laws/State.lean ====
section
/-! SUPPORT. One lemma per field per update, so that no later proof unfolds a record update. -/

namespace Sys2Proof.Machine

@[simp] theorem reset_pos : State.reset.pos = 0 := rfl
@[simp] theorem reset_status : State.reset.status = .run := rfl
@[simp] theorem reset_errOffset : State.reset.errOffset = none := rfl
@[simp] theorem reset_out : State.reset.out = [] := rfl
@[simp] theorem reset_mem : State.reset.mem = [] := rfl
@[simp] theorem reset_len : State.reset.len = 0 := rfl
@[simp] theorem reset_cfg : State.reset.cfg = defaultConfig := rfl

section Updates

variable (s : State) (r : DecodedInstruction) (bytes : List Byte) (cfg : Config) (nbits w : Nat)

@[simp] theorem retire_pos : (retire r s).pos = s.pos + 2 := rfl
@[simp] theorem retire_status : (retire r s).status = s.status := rfl
@[simp] theorem retire_errOffset : (retire r s).errOffset = s.errOffset := rfl
@[simp] theorem retire_out : (retire r s).out = s.out ++ [r] := rfl
@[simp] theorem retire_mem : (retire r s).mem = s.mem := rfl
@[simp] theorem retire_len : (retire r s).len = s.len := rfl
@[simp] theorem retire_cfg : (retire r s).cfg = s.cfg := rfl

@[simp] theorem endOfBuffer_pos : (endOfBuffer s).pos = s.pos := rfl
@[simp] theorem endOfBuffer_status : (endOfBuffer s).status = .done := rfl
@[simp] theorem endOfBuffer_errOffset : (endOfBuffer s).errOffset = s.errOffset := rfl
@[simp] theorem endOfBuffer_out : (endOfBuffer s).out = s.out := rfl
@[simp] theorem endOfBuffer_mem : (endOfBuffer s).mem = s.mem := rfl
@[simp] theorem endOfBuffer_len : (endOfBuffer s).len = s.len := rfl
@[simp] theorem endOfBuffer_cfg : (endOfBuffer s).cfg = s.cfg := rfl

@[simp] theorem raise_pos : (raiseUnsupportedOpcode s).pos = s.pos := rfl
@[simp] theorem raise_status : (raiseUnsupportedOpcode s).status = .fault := rfl
@[simp] theorem raise_errOffset : (raiseUnsupportedOpcode s).errOffset = some s.pos := rfl
@[simp] theorem raise_out : (raiseUnsupportedOpcode s).out = s.out := rfl
@[simp] theorem raise_mem : (raiseUnsupportedOpcode s).mem = s.mem := rfl
@[simp] theorem raise_len : (raiseUnsupportedOpcode s).len = s.len := rfl
@[simp] theorem raise_cfg : (raiseUnsupportedOpcode s).cfg = s.cfg := rfl

@[simp] theorem restart_pos : s.restart.pos = 0 := rfl
@[simp] theorem restart_status : s.restart.status = .run := rfl
@[simp] theorem restart_errOffset : s.restart.errOffset = none := rfl
@[simp] theorem restart_out : s.restart.out = [] := rfl
@[simp] theorem restart_mem : s.restart.mem = s.mem := rfl
@[simp] theorem restart_len : s.restart.len = s.len := rfl
@[simp] theorem restart_cfg : s.restart.cfg = s.cfg := rfl

@[simp] theorem start_pos : (State.start cfg bytes).pos = 0 := rfl
@[simp] theorem start_status : (State.start cfg bytes).status = .run := rfl
@[simp] theorem start_errOffset : (State.start cfg bytes).errOffset = none := rfl
@[simp] theorem start_out : (State.start cfg bytes).out = [] := rfl
@[simp] theorem start_mem : (State.start cfg bytes).mem = Memory.ofBytes 0 bytes := rfl
@[simp] theorem start_len : (State.start cfg bytes).len = bytes.length := rfl
@[simp] theorem start_cfg : (State.start cfg bytes).cfg = cfg := rfl

@[simp] theorem withFetchWord_pos : (s.withFetchWord nbits w).pos = s.pos := rfl
@[simp] theorem withFetchWord_status : (s.withFetchWord nbits w).status = .run := rfl
@[simp] theorem withFetchWord_errOffset : (s.withFetchWord nbits w).errOffset = none := rfl
@[simp] theorem withFetchWord_out : (s.withFetchWord nbits w).out = s.out := rfl
@[simp] theorem withFetchWord_len : (s.withFetchWord nbits w).len = max s.len (s.pos + 2) := rfl
@[simp] theorem withFetchWord_cfg : (s.withFetchWord nbits w).cfg = s.cfg := rfl
@[simp] theorem withFetchWord_mem : (s.withFetchWord nbits w).mem =
    Memory.write (Memory.write s.mem s.pos (tableFirst (tableWord nbits w))) (s.pos + 1)
      (tableSecond (tableWord nbits w)) := rfl

@[simp] theorem fetchByte_eq (a : Nat) (h : a + 1 ≤ s.len) : s.fetchByte a h = Memory.read s.mem a := rfl

/-- A read of the buffer sees only the listing and the length. -/
theorem memRead_congr {s t : State} (hm : t.mem = s.mem) (hl : t.len = s.len) (a n : Nat) :
    t.memRead a n = s.memRead a n := by
  simp [State.memRead, hm, hl]

end Updates

end Sys2Proof.Machine
end

