-- ==== Sys2Proof/Laws/Decode.lean ====
section
/-! SUPPORT. The fields of an encoded byte, the bytes of their fields, and what the decoder and the datapath answer
in each of their two cases. -/

namespace Sys2Proof

open Sys2Proof.Machine

section Fields

variable (cfg : Config) (d w : Bool) (mode : ModeField) (reg rm : RegCode)

/-- The three fields of an encoded byte 1, for every selector. -/
theorem encodeFirst_parts : opsel (encodeFirst cfg d w) = cfg.opcMov ∧
    directionBit (encodeFirst cfg d w) = d ∧ widthBit (encodeFirst cfg d w) = w := by
  unfold encodeFirst
  generalize cfg.opcMov = o
  revert o d w
  decide

@[simp] theorem opsel_encodeFirst : opsel (encodeFirst cfg d w) = cfg.opcMov := (encodeFirst_parts cfg d w).1
@[simp] theorem directionBit_encodeFirst : directionBit (encodeFirst cfg d w) = d := (encodeFirst_parts cfg d w).2.1
@[simp] theorem widthBit_encodeFirst : widthBit (encodeFirst cfg d w) = w := (encodeFirst_parts cfg d w).2.2

/-- The three fields of an encoded byte 2. -/
theorem encodeSecond_parts : modeField (encodeSecond mode reg rm) = mode ∧
    regField (encodeSecond mode reg rm) = reg ∧ rmField (encodeSecond mode reg rm) = rm := by
  revert mode reg rm
  decide

@[simp] theorem modeField_encodeSecond : modeField (encodeSecond mode reg rm) = mode :=
  (encodeSecond_parts mode reg rm).1
@[simp] theorem regField_encodeSecond : regField (encodeSecond mode reg rm) = reg :=
  (encodeSecond_parts mode reg rm).2.1
@[simp] theorem rmField_encodeSecond : rmField (encodeSecond mode reg rm) = rm :=
  (encodeSecond_parts mode reg rm).2.2

end Fields

/-- Byte 1 is its three fields. -/
theorem encodeFirst_fields (cfg : Config) (b1 : Byte) (h : opsel b1 = cfg.opcMov) :
    encodeFirst cfg (directionBit b1) (widthBit b1) = b1 := by
  rw [encodeFirst, ← h]
  clear h
  revert b1
  decide

/-- Byte 2 is its three fields (rule R88). -/
theorem encodeSecond_fields (b2 : Byte) : encodeSecond (modeField b2) (regField b2) (rmField b2) = b2 := by
  revert b2
  decide

/-- An accepted window decodes to the row that its flag bits select. -/
theorem decodeWindow_accept {cfg : Config} {b1 : Byte} (h : opsel b1 = cfg.opcMov) (b2 : Byte) :
    decodeWindow cfg b1 b2 =
      .ok (rowOf (directionBit b1) (widthBit b1) (modeField b2) (regField b2) (rmField b2)) := by
  simp [decodeWindow, h]

/-- Any other window is rejected. -/
theorem decodeWindow_reject {cfg : Config} {b1 : Byte} (h : opsel b1 ≠ cfg.opcMov) (b2 : Byte) :
    decodeWindow cfg b1 b2 = .error .unsupportedOpcode := by
  simp [decodeWindow, h]

/-- On an accepted window the datapath answers the record of the window's fields, and the mode. -/
theorem decodePair_accept {cfg : Config} {b1 : Byte} (h : opsel b1 = cfg.opcMov) (b2 : Byte) :
    decodePair cfg b1 b2 =
      .ok (recordOf cfg (directionBit b1) (widthBit b1) (regField b2) (rmField b2), modeField b2) := by
  simp [decodePair, firstByteDecoder, h, secondByteDecoder, recordOf]

/-- On any other window it answers the condition. -/
theorem decodePair_reject {cfg : Config} {b1 : Byte} (h : opsel b1 ≠ cfg.opcMov) (b2 : Byte) :
    decodePair cfg b1 b2 = .error .unsupportedOpcode := by
  simp [decodePair, firstByteDecoder, h]

/-- The encoding of the row that two flag bits select. -/
@[simp] theorem encode_rowOf (cfg : Config) (d w : Bool) (mode : ModeField) (reg rm : RegCode) :
    encode cfg (rowOf d w mode reg rm) = [encodeFirst cfg d w, encodeSecond mode reg rm] := by
  cases d <;> cases w <;> rfl

/-- Every instruction is the row of some flag bits and fields. -/
theorem exists_rowOf (i : Instr) : ∃ d w mode reg rm, i = rowOf d w mode reg rm := by
  cases i with
  | movRm8R8 mode reg rm => exact ⟨false, false, mode, reg, rm, rfl⟩
  | movRm16R16 mode reg rm => exact ⟨false, true, mode, reg, rm, rfl⟩
  | movR8Rm8 mode reg rm => exact ⟨true, false, mode, reg, rm, rfl⟩
  | movR16Rm16 mode reg rm => exact ⟨true, true, mode, reg, rm, rfl⟩

end Sys2Proof
end

