-- ==== Sys2Proof/Laws/Memory.lean ====
section
/-! SUPPORT. The laws of the input buffer: a read after a write, the canonical form kept by every operation, and
the listing of a supplied buffer. -/

namespace Sys2Proof.Machine

@[simp] theorem read_nil (a : Nat) : Memory.read [] a = unlistedByte := rfl

@[simp] theorem read_cons (c : Host.Cell) (m : Memory) (a : Nat) :
    Memory.read (c :: m) a = if c.1 = a then c.2 else Memory.read m a := rfl

/-- An offset below every listed one is unlisted. -/
theorem read_below (m : Memory) (a : Nat) (h : ∀ c ∈ m, a < c.1) : Memory.read m a = unlistedByte := by
  induction m with
  | nil => rfl
  | cons c m ih =>
    have hc : c.1 ≠ a := Nat.ne_of_gt (h c (by simp))
    simp [hc, ih (fun d hd => h d (by simp [hd]))]

/-- Every entry of a written listing is the new one or an old one. -/
theorem mem_write (m : Memory) (a : Nat) (v : Byte) (c : Host.Cell) (hc : c ∈ Memory.write m a v) :
    (c = (a, v) ∧ v ≠ unlistedByte) ∨ c ∈ m := by
  induction m with
  | nil =>
    by_cases hv : v = unlistedByte <;> simp_all [Memory.write]
  | cons d m ih =>
    simp only [Memory.write] at hc
    have hnew : v ≠ unlistedByte → ∀ l, c ∈ (a, v) :: l → (∀ x ∈ l, x ∈ d :: m) →
        (c = (a, v) ∧ v ≠ unlistedByte) ∨ c ∈ d :: m := fun hv l hc hl => by
      rcases List.mem_cons.mp hc with rfl | hc
      · exact .inl ⟨rfl, hv⟩
      · exact .inr (hl c hc)
    split_ifs at hc with h1 h2 h3 h4
    · exact .inr hc
    · exact hnew h2 _ hc (fun x hx => hx)
    · exact .inr (List.mem_cons_of_mem d hc)
    · exact hnew h4 _ hc (fun x hx => List.mem_cons_of_mem d hx)
    · rcases List.mem_cons.mp hc with rfl | hc
      · exact .inr List.mem_cons_self
      · exact (ih hc).imp_right (List.mem_cons_of_mem d)

/-- A write keeps the canonical form. -/
theorem write_wf (m : Memory) (a : Nat) (v : Byte) (h : Memory.wf m) : Memory.wf (Memory.write m a v) := by
  refine ⟨?_, fun c hc => ?_⟩
  · obtain ⟨hp, -⟩ := h
    induction m with
    | nil => by_cases hv : v = unlistedByte <;> simp [Memory.write, hv]
    | cons d m ih =>
      obtain ⟨hd, hm⟩ := List.pairwise_cons.mp hp
      simp only [Memory.write]
      split_ifs with h1 h2 h3 h4
      · exact hp
      · exact List.pairwise_cons.mpr ⟨fun c hc => by
          rcases List.mem_cons.mp hc with rfl | hc
          · exact h1
          · exact Nat.lt_trans h1 (hd c hc), hp⟩
      · exact hm
      · exact List.pairwise_cons.mpr ⟨fun c hc => h3 ▸ hd c hc, hm⟩
      · refine List.pairwise_cons.mpr ⟨fun c hc => ?_, ih hm⟩
        rcases mem_write m a v c hc with ⟨rfl, -⟩ | hc
        · simp only; omega
        · exact hd c hc
  · rcases mem_write m a v c hc with ⟨rfl, hv⟩ | hc
    · exact hv
    · exact h.2 c hc

/-- Reading back: the written byte at its offset, the old byte everywhere else. -/
theorem read_write (m : Memory) (a : Nat) (v : Byte) (h : Memory.wf m) (b : Nat) :
    Memory.read (Memory.write m a v) b = if b = a then v else Memory.read m b := by
  obtain ⟨hp, -⟩ := h
  induction m with
  | nil =>
    by_cases hv : v = unlistedByte <;> by_cases hb : b = a <;> simp_all [Memory.write, eq_comm]
  | cons d m ih =>
    obtain ⟨hd, hm⟩ := List.pairwise_cons.mp hp
    have hbelow : ∀ x, x ≤ d.1 → Memory.read m x = unlistedByte := fun x hx =>
      read_below m x (fun c hc => Nat.lt_of_le_of_lt hx (hd c hc))
    rcases Nat.lt_trichotomy a d.1 with h1 | h1 | h1
    · have hw : Memory.write (d :: m) a v =
          if v = unlistedByte then d :: m else (a, v) :: d :: m := by simp [Memory.write, h1]
      by_cases hb : b = a
      · subst hb
        rw [hw]
        by_cases hv : v = unlistedByte <;> simp [hv, Nat.ne_of_gt h1, hbelow b (Nat.le_of_lt h1)]
      · rw [hw]
        by_cases hv : v = unlistedByte <;> simp [hv, hb, Ne.symm hb]
    · have hw : Memory.write (d :: m) a v = if v = unlistedByte then m else (a, v) :: m := by
        simp [Memory.write, h1]
      by_cases hb : b = a
      · subst hb
        rw [hw]
        by_cases hv : v = unlistedByte <;> simp [hv, hbelow b (Nat.le_of_eq h1)]
      · rw [hw]
        by_cases hv : v = unlistedByte <;> simp [hv, hb, Ne.symm hb, ← h1]
    · have hw : Memory.write (d :: m) a v = d :: Memory.write m a v := by
        simp [Memory.write, Nat.not_lt_of_gt h1, Nat.ne_of_gt h1]
      by_cases hb : b = a
      · subst hb
        simp [hw, ih hm, Nat.ne_of_lt h1]
      · by_cases hd' : d.1 = b <;> simp [hw, ih hm, hb, hd']

/-- The listing of a supplied buffer names no offset below its base. -/
theorem base_le_ofBytes (bytes : List Byte) (base : Nat) :
    ∀ c ∈ Memory.ofBytes base bytes, base ≤ c.1 ∧ c.1 < base + bytes.length := by
  induction bytes generalizing base with
  | nil => simp [Memory.ofBytes]
  | cons b bytes ih =>
    intro c hc
    simp only [Memory.ofBytes] at hc
    have hrest : c ∈ Memory.ofBytes (base + 1) bytes → base ≤ c.1 ∧ c.1 < base + (b :: bytes).length := by
      intro hc
      have := ih (base + 1) c hc
      simp only [List.length_cons]
      omega
    split_ifs at hc with hb
    · exact hrest hc
    · rcases List.mem_cons.mp hc with rfl | hc
      · simp
      · exact hrest hc

/-- The listing of a supplied buffer is canonical. -/
theorem ofBytes_wf (bytes : List Byte) (base : Nat) : Memory.wf (Memory.ofBytes base bytes) := by
  induction bytes generalizing base with
  | nil => simp [Memory.ofBytes, Memory.wf]
  | cons b bytes ih =>
    obtain ⟨hp, hv⟩ := ih (base + 1)
    simp only [Memory.ofBytes]
    split_ifs with hb
    · exact ⟨hp, hv⟩
    · refine ⟨List.pairwise_cons.mpr ⟨fun c hc => ?_, hp⟩, ?_⟩
      · have := (base_le_ofBytes bytes (base + 1) c hc).1
        simp only
        omega
      · simpa using ⟨hb, fun a v h => hv (a, v) h⟩

/-- The byte at offset `base + k` of a supplied buffer is its `k`-th byte. -/
theorem read_ofBytes (bytes : List Byte) (base k : Nat) :
    Memory.read (Memory.ofBytes base bytes) (base + k) = bytes.getD k unlistedByte := by
  induction bytes generalizing base k with
  | nil => rfl
  | cons b bytes ih =>
    have hbelow : Memory.read (Memory.ofBytes (base + 1) bytes) base = unlistedByte :=
      read_below _ _ (fun c hc => (base_le_ofBytes bytes (base + 1) c hc).1)
    cases k with
    | zero =>
      by_cases hb : b = unlistedByte <;> simp [Memory.ofBytes, hb, hbelow]
    | succ k =>
      have hk : base + (k + 1) = base + 1 + k := by omega
      by_cases hb : b = unlistedByte <;> simp [Memory.ofBytes, hb, hk, ih]
      omega

/-- The start of a run is a canonical state. -/
theorem start_memWf (cfg : Config) (bytes : List Byte) : (State.start cfg bytes).memWf :=
  ⟨ofBytes_wf bytes 0, fun c hc => by simpa using (base_le_ofBytes bytes 0 c hc).2⟩

/-- Reset, retirement, the end of the buffer and the exception leave the buffer as it is. -/
theorem restart_memWf {s : State} (h : s.memWf) : s.restart.memWf := h
theorem retire_memWf {s : State} (r : DecodedInstruction) (h : s.memWf) : (retire r s).memWf := h
theorem endOfBuffer_memWf {s : State} (h : s.memWf) : (endOfBuffer s).memWf := h
theorem raise_memWf {s : State} (h : s.memWf) : (raiseUnsupportedOpcode s).memWf := h
theorem reset_memWf : State.reset.memWf := ⟨by simp [Memory.wf], by simp⟩

/-- Placing one window for the next step keeps the canonical form. -/
theorem withFetchWord_memWf {s : State} (nbits w : Nat) (h : s.memWf) : (s.withFetchWord nbits w).memWf := by
  refine ⟨write_wf _ _ _ (write_wf _ _ _ h.1), fun c hc => ?_⟩
  rw [withFetchWord_mem] at hc
  simp only [withFetchWord_len]
  rcases mem_write _ _ _ _ hc with ⟨rfl, -⟩ | hc
  · simp
  · rcases mem_write _ _ _ _ hc with ⟨rfl, -⟩ | hc
    · simp
    · exact Nat.lt_of_lt_of_le (h.2 c hc) (Nat.le_max_left _ _)

end Sys2Proof.Machine
end

