-- ==== Sys2Proof/Laws/Step.lean ====
section
/-! SUPPORT. What the shared operations and one step can do, said once. -/

namespace Sys2Proof.Machine

/-- Fetch answers the two bytes at `pos` when they exist. -/
theorem fetchWindow_some {s : State} (h : s.pos + 2 ≤ s.len) :
    fetchWindow s = some (Memory.read s.mem s.pos, Memory.read s.mem (s.pos + 1)) := by
  simp [fetchWindow, h]

/-- Fetch answers nothing when fewer than two bytes remain. -/
theorem fetchWindow_none {s : State} (h : s.len < s.pos + 2) : fetchWindow s = none := by
  simp [fetchWindow, Nat.not_le_of_lt h]

/-- The effect of the row that two flag bits select, for every state. -/
theorem exec_rowOf (d w : Bool) (mode : ModeField) (reg rm : RegCode) (s : State) :
    exec (rowOf d w mode reg rm) s = .next (retire (recordOf s.cfg d w reg rm) s) := by
  cases d <;> cases w <;> rfl

/-- Every instruction retires one record; nothing else changes. -/
theorem exec_retires (i : Instr) (s : State) : ∃ r, exec i s = .next (retire r s) := by
  obtain ⟨d, w, mode, reg, rm, rfl⟩ := exists_rowOf i
  exact ⟨_, exec_rowOf d w mode reg rm s⟩

/-- A step in RUN with fewer than two bytes left. -/
theorem step_endOfBuffer {s : State} (hr : s.status = .run) (h : s.len < s.pos + 2) :
    step s = .next (endOfBuffer s) := by
  simp [step, hr, fetchWindow_none h]

/-- A step in RUN on an accepted window retires the datapath's record. -/
theorem step_accept {s : State} (hr : s.status = .run) (h : s.pos + 2 ≤ s.len)
    (hm : opsel (Memory.read s.mem s.pos) = s.cfg.opcMov) :
    step s = .next (retire (recordOf s.cfg (directionBit (Memory.read s.mem s.pos))
      (widthBit (Memory.read s.mem s.pos)) (regField (Memory.read s.mem (s.pos + 1)))
      (rmField (Memory.read s.mem (s.pos + 1)))) s) := by
  simp [step, hr, fetchWindow_some h, decodeWindow_accept hm, exec_rowOf]

/-- A step in RUN on any other window takes the exception. -/
theorem step_reject {s : State} (hr : s.status = .run) (h : s.pos + 2 ≤ s.len)
    (hm : opsel (Memory.read s.mem s.pos) ≠ s.cfg.opcMov) :
    step s = .next (raiseUnsupportedOpcode s) := by
  simp [step, hr, fetchWindow_some h, decodeWindow_reject hm]

/-- A step in DONE is refused. -/
theorem step_done {s : State} (h : s.status = .done) : step s = .refused .runEnded := by
  simp [step, h, doneOutcome]

/-- A step in FAULT stops with the fault. -/
theorem step_fault {s : State} (h : s.status = .fault) : step s = .fault .unsupportedOpcode := by
  simp [step, h, faultOutcome]

/-- All that a step can do: if it answers a next state, it was enabled, and it ended the run, retired the datapath's
record of the window at `pos`, or took the exception on it. -/
theorem step_cases {s t : State} (h : step s = .next t) : s.status = .run ∧
    ((s.len < s.pos + 2 ∧ t = endOfBuffer s) ∨
     (s.pos + 2 ≤ s.len ∧ opsel (Memory.read s.mem s.pos) = s.cfg.opcMov ∧ ∃ r,
       decodePair s.cfg (Memory.read s.mem s.pos) (Memory.read s.mem (s.pos + 1)) =
         .ok (r, modeField (Memory.read s.mem (s.pos + 1))) ∧ t = retire r s) ∨
     (s.pos + 2 ≤ s.len ∧ opsel (Memory.read s.mem s.pos) ≠ s.cfg.opcMov ∧ t = raiseUnsupportedOpcode s)) := by
  cases hs : s.status with
  | done => simp [step_done hs] at h
  | fault => simp [step_fault hs] at h
  | run =>
    refine ⟨rfl, ?_⟩
    rcases Nat.lt_or_ge s.len (s.pos + 2) with hl | hl
    · rw [step_endOfBuffer hs hl] at h
      exact .inl ⟨hl, (Host.Outcome.next.inj h).symm⟩
    · by_cases hm : opsel (Memory.read s.mem s.pos) = s.cfg.opcMov
      · rw [step_accept hs hl hm] at h
        exact .inr (.inl ⟨hl, hm, _, decodePair_accept hm _, (Host.Outcome.next.inj h).symm⟩)
      · rw [step_reject hs hl hm] at h
        exact .inr (.inr ⟨hl, hm, (Host.Outcome.next.inj h).symm⟩)

/-- In RUN a step always answers a next state. -/
theorem step_enabled {s : State} (hr : s.status = .run) : ∃ t, step s = .next t := by
  rcases Nat.lt_or_ge s.len (s.pos + 2) with hl | hl
  · exact ⟨_, step_endOfBuffer hr hl⟩
  · by_cases hm : opsel (Memory.read s.mem s.pos) = s.cfg.opcMov
    · exact ⟨_, step_accept hr hl hm⟩
    · exact ⟨_, step_reject hr hl hm⟩

/-! Runs. -/

@[simp] theorem runFor_zero (s : State) : runFor 0 s = .next s := rfl

/-- A run of one step more starts with that step. -/
theorem runFor_succ (k : Nat) (s : State) :
    runFor (k + 1) s = match step s with
      | .next t => runFor k t
      | .fault f => .fault f
      | .refused r => .refused r := by
  cases h : step s <;> simp [runFor, Host.Core.run, core, h]

/-- A run that continues after a step. -/
theorem runFor_succ_next {s t : State} (h : step s = .next t) (k : Nat) : runFor (k + 1) s = runFor k t := by
  rw [runFor_succ, h]

end Sys2Proof.Machine
end

