-- ==== Sys2Proof/Laws/HostMoves.lean ====
section
/-! SUPPORT. What a host's move and an event can do, said once. -/

namespace Sys2Proof.Machine

@[simp] theorem hostMove_reset (s : State) : hostMove .reset s = some s.restart := rfl

/-- Outside RUN a new run starts from what the host supplies. -/
theorem hostMove_newRun {s : State} (h : s.status ≠ .run) (cfg : Config) (bytes : List Byte) :
    hostMove (.newRun cfg bytes) s = some (State.start cfg bytes) := by
  cases hs : s.status <;> simp_all [hostMove]

/-- In RUN there is no such move. -/
theorem hostMove_newRun_run {s : State} (h : s.status = .run) (cfg : Config) (bytes : List Byte) :
    hostMove (.newRun cfg bytes) s = none := by
  simp [hostMove, h]

/-- All that a host's move can do. -/
theorem hostMove_cases {m : HostMove} {s t : State} (h : hostMove m s = some t) :
    (m = .reset ∧ t = s.restart) ∨
    ∃ cfg bytes, m = .newRun cfg bytes ∧ s.status ≠ .run ∧ t = State.start cfg bytes := by
  cases m with
  | reset => exact .inl ⟨rfl, (Option.some.inj h).symm⟩
  | newRun cfg bytes =>
    by_cases hs : s.status = .run
    · simp [hostMove_newRun_run hs] at h
    · rw [hostMove_newRun hs] at h
      exact .inr ⟨cfg, bytes, rfl, hs, (Option.some.inj h).symm⟩

/-- All that an event can do: the block's step with the record offered, or a host's move that takes nothing. -/
theorem System.next_cases {e : Event} {y z : System} (h : System.next e y = some z) :
    (e = .step ∧ Sys2Proof.Machine.step y.block = .next z.block ∧
      z.taken = y.taken ++ ((outPort y.block).map Prod.fst).toList) ∨
    ∃ m, e = .move m ∧ hostMove m y.block = some z.block ∧ z.taken = y.taken := by
  cases e with
  | step =>
    cases hs : Sys2Proof.Machine.step y.block <;> simp only [System.next, hs] at h
    · obtain rfl := Option.some.inj h
      exact .inl ⟨rfl, rfl, rfl⟩
    · cases h
    · cases h
  | move m =>
    cases hm : hostMove m y.block <;> simp only [System.next, hm] at h
    · cases h
    · obtain rfl := Option.some.inj h
      exact .inr ⟨m, rfl, hm, rfl⟩

/-- A sequence with a first event is that event and the rest. -/
theorem System.runEvents_cons {e : Event} {es : List Event} {y z : System}
    (h : System.runEvents (e :: es) y = some z) :
    ∃ x, System.next e y = some x ∧ System.runEvents es x = some z := by
  cases hx : System.next e y <;> simp only [System.runEvents, hx] at h
  · cases h
  · exact ⟨_, rfl, h⟩

/-- Placing a window in the reset state is the start of a run over its two bytes: what `withFetchWord` stands for there
is the row "start a run" of rule R193, before any step (notes/assumptions/3.md). -/
theorem withFetchWord_reset (nbits w : Nat) : State.reset.withFetchWord nbits w =
    State.start defaultConfig [tableFirst (tableWord nbits w), tableSecond (tableWord nbits w)] := by
  generalize h1 : tableFirst (tableWord nbits w) = b1
  generalize h2 : tableSecond (tableWord nbits w) = b2
  by_cases e1 : b1 = unlistedByte <;> by_cases e2 : b2 = unlistedByte <;>
    simp [State.withFetchWord, State.start, State.reset, h1, h2, e1, e2, Memory.write, Memory.ofBytes]

end Sys2Proof.Machine
end

