-- ==== Sys2Proof/Laws/PerInstr.lean ====
section
/-! SUPPORT. A fact about every instruction as syntax, one lemma per constructor: its encoding is two bytes (rule R60),
the first with the recognized selector (rule R64). -/

namespace Sys2Proof.Laws.EncodingShape

/-- The encoding of an instruction has two bytes and its first byte carries the recognized selector. -/
def Statement (i : Instr) : Prop :=
  ∀ cfg : Config, (encode cfg i).length = 2 ∧ (encode cfg i).head?.map opsel = some cfg.opcMov

theorem movRm8R8 (mode : ModeField) (reg rm : RegCode) : Statement (.movRm8R8 mode reg rm) :=
  fun cfg => by simp [encode]

theorem movRm16R16 (mode : ModeField) (reg rm : RegCode) : Statement (.movRm16R16 mode reg rm) :=
  fun cfg => by simp [encode]

theorem movR8Rm8 (mode : ModeField) (reg rm : RegCode) : Statement (.movR8Rm8 mode reg rm) :=
  fun cfg => by simp [encode]

theorem movR16Rm16 (mode : ModeField) (reg rm : RegCode) : Statement (.movR16Rm16 mode reg rm) :=
  fun cfg => by simp [encode]

end Sys2Proof.Laws.EncodingShape
end

