-- ==== Sys2Proof/Tests/Slice0.lean ====
section
/-! SUPPORT. The model's own tests, and for every statement with hypotheses a state and operands that meet them all.
Expected results come from the spec's worked examples and tables, named at each test. -/

namespace Sys2Proof.Tests

open Sys2Proof Sys2Proof.Machine

/-! ### Small states -/

/-- The start of a run over some bytes, at the default constants. -/
def startOf (bytes : List Byte) : State := State.start defaultConfig bytes

/-- A state in the middle of a run, at the default constants. -/
def midRun (bytes : List Byte) (pos : Nat) (out : List DecodedInstruction) : State :=
  { startOf bytes with pos := pos, out := out }

/-- Program 3 of 95_test_vectors.md after its first step, at the offending window. -/
def atBadWindow : State := midRun [0x89, 0xD8, 0xB8, 0x01, 0x89, 0xD9] 2 [⟨.mov, .ax, .bx⟩]

/-- Program 3 of 95_test_vectors.md at its end. -/
def afterFault : State := { atBadWindow with status := .fault, errOffset := some 2 }

/-- Program 9 of 95_test_vectors.md at its end: a lone byte was dropped. -/
def afterDone : State := { midRun [0x89, 0xD8, 0x89] 2 [⟨.mov, .ax, .bx⟩] with status := .done }

/-- A configuration other than the default: both polarities flipped, another selector, the two rows reversed. -/
def otherConfig : Config where
  opcMov := 0b111010
  polD := false
  polW := false
  regTab := { narrow := #v[.bh, .dh, .ch, .ah, .bl, .dl, .cl, .al], wide := #v[.di, .si, .bp, .sp, .bx, .dx, .cx, .ax] }

/-! ### WellFormed refuses each ill-formed term -/

/-- Operands of two widths (30_encoding.md, rule R63). -/
theorem test_mixed_widths_refused :
    DecodedInstruction.wellFormed ⟨.mov, .al, .ax⟩ = false ∧ DecodedInstruction.wellFormed ⟨.mov, .sp, .di⟩ = true := by
  decide

/-- A name twice in a row, and a name of the other width in a row (41_register_resolver.md, rule R102). -/
theorem test_bad_tables_refused :
    RegTab.wellFormed { defaultRegTab with narrow := #v[.al, .cl, .dl, .bl, .ah, .ch, .dh, .al] } = false ∧
    RegTab.wellFormed { defaultRegTab with wide := #v[.ax, .cx, .dx, .bx, .sp, .bp, .si, .bh] } = false ∧
    Config.wellFormed { defaultConfig with regTab := { defaultRegTab with wide := defaultRegTab.narrow } } = false ∧
    otherConfig.wellFormed = true := by
  decide

/-! ### Decoding: the source's scenario, the examples of rules R122 to R125, the tables of 95_test_vectors.md -/

/-- `88 E5`, rule R122's example: reg = 4, rm = 5. -/
theorem test_decode_88E5 : decodeTableWord 16 0b1000100011100101 = some (.movRm8R8 3 4 5) := by decide

/-- `89 D8`, the source's scenario (rule R123): mode = 11, reg = 3, rm = 0. -/
theorem test_decode_89D8 : decodeTableWord 16 0b1000100111011000 = some (.movRm16R16 3 3 0) := by decide

/-- `8A 07`, section 3.5: mode = 00, reg = 0, rm = 7. -/
theorem test_decode_8A07 : decodeTableWord 16 0b1000101000000111 = some (.movR8Rm8 0 0 7) := by decide

/-- `8B BF`, section 3.5: mode = 10, reg = 7, rm = 7. -/
theorem test_decode_8BBF : decodeTableWord 16 0b1000101110111111 = some (.movR16Rm16 2 7 7) := by decide

/-- The one-bit neighbours and the nearest values of section 4 are no instruction. -/
theorem test_decode_rejects :
    [0x87, 0x8C, 0x08, 0xC8, 0xA8, 0x98, 0x80, 0x00, 0xFF, 0xB8, 0xC7, 0x8E, 0x90].map
      (fun b1 => decodeWindow defaultConfig b1 0xD8) = List.replicate 13 (.error .unsupportedOpcode) := by
  rfl

/-- The bits of `0x89` and `0xD8` as rule R80 writes them. -/
theorem test_bits :
    bitFieldExtractor 0x89 = [true, false, false, false, true, false, false, true] ∧
    bitFieldExtractor 0xD8 = [true, true, false, true, true, false, false, false] := by
  decide

/-- The encoder writes the bytes of the examples. -/
theorem test_encode :
    encode defaultConfig (.movRm8R8 3 4 5) = [0x88, 0xE5] ∧ encode defaultConfig (.movRm16R16 3 3 0) = [0x89, 0xD8] ∧
    encode defaultConfig (.movR8Rm8 0 0 7) = [0x8A, 0x07] ∧ encode defaultConfig (.movR16Rm16 2 7 7) = [0x8B, 0xBF] := by
  decide

/-! ### One step of each form -/

/-- `88 E5` is `mov ch, ah` (rule R122). -/
theorem test_step_88E5 : step (State.reset.withFetchWord 16 0x88E5) =
    .next { State.reset.withFetchWord 16 0x88E5 with pos := 2, out := [⟨.mov, .ch, .ah⟩] } := by rfl

/-- `89 D8` is `mov ax, bx` (rule R123, conflict C1). -/
theorem test_step_89D8 : step (State.reset.withFetchWord 16 0x89D8) =
    .next { State.reset.withFetchWord 16 0x89D8 with pos := 2, out := [⟨.mov, .ax, .bx⟩] } := by rfl

/-- `8A E5` is `mov ah, ch` (rule R124). -/
theorem test_step_8AE5 : step (State.reset.withFetchWord 16 0x8AE5) =
    .next { State.reset.withFetchWord 16 0x8AE5 with pos := 2, out := [⟨.mov, .ah, .ch⟩] } := by rfl

/-- `8B 07` is `mov ax, di`, not a load (rule R125). -/
theorem test_step_8B07 : step (State.reset.withFetchWord 16 0x8B07) =
    .next { State.reset.withFetchWord 16 0x8B07 with pos := 2, out := [⟨.mov, .ax, .di⟩] } := by rfl

/-- Program 3 of 95_test_vectors.md, second step: the exception at offset 2. -/
theorem test_step_raises : step atBadWindow = .next afterFault := by rfl

/-- Programs 5 and 6: an empty buffer and a lone byte end the run at once. -/
theorem test_step_ends : step (startOf []) = .next { startOf [] with status := .done } ∧
    step (startOf [0x00]) = .next { startOf [0x00] with status := .done } := by exact ⟨rfl, rfl⟩

/-- The text lines of rule R166. -/
theorem test_text_lines : [textLine ⟨.mov, .ax, .bx⟩, textLine ⟨.mov, .ch, .ah⟩, textLine ⟨.mov, .sp, .di⟩,
    textLine ⟨.mov, .ch, .ch⟩] = ["mov ax, bx", "mov ch, ah", "mov sp, di", "mov ch, ch"] := by decide

/-- The packing of rule R166: `ax` is place 8, `bx` 11, `ch` 5, `ah` 4. -/
theorem test_places : [packPlace .ax, packPlace .bx, packPlace .ch, packPlace .ah] = [8, 11, 5, 4] := by decide

/-! ### States that meet the hypotheses of the statements -/

theorem witness_inv_atBadWindow : Inv atBadWindow := by
  refine ⟨by decide, by decide, by decide, fun k hk => ?_, fun k hk => ?_, by decide, by decide, by decide,
    start_memWf defaultConfig _⟩
  · obtain rfl : k = 0 := by simp [atBadWindow, midRun] at hk; omega
    exact ⟨_, _, rfl, rfl⟩
  · obtain rfl : k = 0 := by simp [atBadWindow, midRun] at hk; omega
    rfl

theorem witness_inv_afterFault : Inv afterFault :=
  ⟨by decide, by decide, by decide, witness_inv_atBadWindow.outDecoded, witness_inv_atBadWindow.selectorsMatch,
    by decide, fun _ => by decide, by decide, start_memWf defaultConfig _⟩

theorem witness_inv_afterDone : Inv afterDone := by
  refine ⟨by decide, by decide, by decide, fun k hk => ?_, fun k hk => ?_, by decide, by decide, by decide,
    start_memWf defaultConfig _⟩
  · obtain rfl : k = 0 := by simp [afterDone, midRun] at hk; omega
    exact ⟨_, _, rfl, rfl⟩
  · obtain rfl : k = 0 := by simp [afterDone, midRun] at hk; omega
    rfl

/-- StepKeepsRunInvariants. -/
theorem witness_StepKeepsRunInvariants : Inv atBadWindow ∧ step atBadWindow = .next afterFault :=
  ⟨witness_inv_atBadWindow, rfl⟩

/-- WindowResultDependsOnItsBytesOnly: two states of different histories. -/
theorem witness_WindowResultDependsOnItsBytesOnly :
    (startOf [0x89, 0xD8]).status = .run ∧ (midRun [0x00, 0x00, 0x89, 0xD8, 0x01] 2 []).status = .run ∧
    (startOf [0x89, 0xD8]).cfg = (midRun [0x00, 0x00, 0x89, 0xD8, 0x01] 2 []).cfg ∧
    (startOf [0x89, 0xD8]).memRead 0 1 = some [0x89] ∧ (startOf [0x89, 0xD8]).memRead 1 1 = some [0xD8] ∧
    (midRun [0x00, 0x00, 0x89, 0xD8, 0x01] 2 []).memRead 2 1 = some [0x89] ∧
    (midRun [0x00, 0x00, 0x89, 0xD8, 0x01] 2 []).memRead 3 1 = some [0xD8] := by decide

/-- ResetStartsFreshRunOverBuffer: a faulted state. -/
theorem witness_ResetStartsFreshRunOverBuffer : afterFault.memWf := by decide

/-- StepWritesNoMemory, MovLeavesEverythingElse and OutPortPresentsAppendedRecord: a step that presents a record, and
one that presents none. -/
theorem witness_next_states :
    (∃ t, step (startOf [0x89, 0xD8]) = .next t) ∧ (∃ t, exec (.movRm16R16 3 3 0) (startOf [0x89, 0xD8]) = .next t) ∧
    outPort (startOf [0x89, 0xD8]) = some (⟨.mov, .ax, .bx⟩, 3) ∧ outPort atBadWindow = none ∧
    step atBadWindow = .next afterFault :=
  ⟨⟨_, rfl⟩, ⟨_, rfl⟩, rfl, rfl, rfl⟩

/-- PrefixDeterminesFirstWindows, at the boundary `k = n`. -/
theorem witness_PrefixDeterminesFirstWindows : ([0x89, 0xD8] : List Byte).length = 2 * 1 ∧ 1 ≤ 1 := by decide

/-- InstructionsAreTwoBytes and EncodeInvertsDecode. -/
theorem witness_decode_ok :
    decode defaultConfig [0x8B, 0xBF, 0x00] = .ok (.movR16Rm16 2 7 7, [0x00]) ∧
    step (startOf [0x89, 0xD8]) = .next (midRun [0x89, 0xD8] 2 [⟨.mov, .ax, .bx⟩]) ∧
    (midRun [0x89, 0xD8] 2 [⟨.mov, .ax, .bx⟩]).status = .run :=
  ⟨rfl, rfl, rfl⟩

/-- DecodeInvertsEncode: an instruction of each row at its highest operands. -/
theorem witness_DecodeInvertsEncode : [Instr.movRm8R8 3 7 7, .movRm16R16 3 7 7, .movR8Rm8 3 7 7, .movR16Rm16 3 7 7].all
    Instr.wellFormed = true := by decide

/-- NoByteTwoIsReserved and DatapathFailsOnOtherSelectorsOnly: a selector that matches and one that does not, at another
configuration than the default. -/
theorem witness_selectors : opsel 0xE8 = otherConfig.opcMov ∧ opsel 0x89 ≠ otherConfig.opcMov := by decide

/-- EveryRecordComesFromEightWindows, ResolverIsBijective, OperandExchangeLaws and EqualFieldsGiveEqualOperands, equal
fields (`DB`) and different fields (`D9`), at another configuration than the default. -/
theorem witness_other_config :
    otherConfig.wellFormed = true ∧ DecodedInstruction.wellFormed ⟨.mov, .ch, .ch⟩ = true ∧
    placeWidth .sp = .wide ∧ (∃ r m, decodePair otherConfig 0xE8 0xDB = .ok (r, m)) ∧ regField 0xDB = rmField 0xDB ∧
    (∃ r m, decodePair otherConfig 0xE8 0xD9 = .ok (r, m)) ∧ regField 0xD9 ≠ rmField 0xD9 :=
  ⟨by decide, by decide, rfl, ⟨_, _, rfl⟩, by decide, ⟨_, _, rfl⟩, by decide⟩

/-- The four completion statements, clause at the default configuration. -/
theorem witness_default_config : (startOf [0x88, 0xE5]).cfg = defaultConfig := rfl

/-- DecoderAndMeaningAgreeWithDatapath, both clauses. -/
theorem witness_DecoderAndMeaningAgreeWithDatapath :
    decodeWindow (startOf []).cfg 0x88 0xE5 = .ok (.movRm8R8 3 4 5) ∧
    decodeWindow (startOf []).cfg 0x8C 0xD8 = .error .unsupportedOpcode := ⟨rfl, rfl⟩

/-- WidthBitMovesBothOperands and WiresRealiseDatapath: the spec's table at flipped polarities, and a record. -/
theorem witness_default_table :
    ({ defaultConfig with polD := false, polW := false } : Config).regTab = defaultRegTab ∧
    (∃ r m, decodePair { defaultConfig with polD := false, polW := false } 0x89 0xD8 = .ok (r, m)) ∧
    DecodedInstruction.wellFormed ⟨.mov, .di, .ax⟩ = true := ⟨rfl, ⟨_, _, rfl⟩, rfl⟩

/-- StepRunsDecodedInstruction and SuccessfulDecodeAppendsRecord: the last window of a buffer. -/
theorem witness_accepted_window :
    (midRun [0x00, 0x00, 0x8B, 0x07] 2 []).status = .run ∧
    (midRun [0x00, 0x00, 0x8B, 0x07] 2 []).memRead 2 1 = some [0x8B] ∧
    (midRun [0x00, 0x00, 0x8B, 0x07] 2 []).memRead 3 1 = some [0x07] ∧
    decodeWindow defaultConfig 0x8B 0x07 = .ok (.movR16Rm16 0 0 7) ∧
    decodePair defaultConfig 0x8B 0x07 = .ok (⟨.mov, .ax, .di⟩, 0) :=
  ⟨rfl, rfl, rfl, rfl, rfl⟩

/-- UnsupportedOpcodeHalts. -/
theorem witness_UnsupportedOpcodeHalts :
    atBadWindow.status = .run ∧ atBadWindow.memRead 2 1 = some [0xB8] ∧ atBadWindow.memRead 3 1 = some [0x01] ∧
    decodePair atBadWindow.cfg 0xB8 0x01 = .error .unsupportedOpcode := ⟨rfl, rfl, rfl, rfl⟩

/-- EndOfBufferEndsTheRun at both ends of its range: no byte left, one byte left. -/
theorem witness_EndOfBufferEndsTheRun :
    (midRun [0x89, 0xD8] 2 []).status = .run ∧ (midRun [0x89, 0xD8] 2 []).len = 2 ∧ 2 < 2 + 2 ∧
    (midRun [0x89, 0xD8, 0x00] 2 []).status = .run ∧ (midRun [0x89, 0xD8, 0x00] 2 []).len = 3 ∧ 3 < 2 + 2 := by
  decide

/-- NoStepOutsideRun: a state of each status. -/
theorem witness_statuses : afterDone.status = .done ∧ afterFault.status = .fault ∧ atBadWindow.status = .run :=
  ⟨rfl, rfl, rfl⟩

/-- ControlFlowIsAdvanceOrStop: a step into each of its three cases, and another instruction's byte (a jump's). -/
theorem witness_ControlFlowIsAdvanceOrStop :
    (∃ t, step (startOf [0x89, 0xD8]) = .next t) ∧ (∃ t, step (startOf [0x00]) = .next t) ∧
    (∃ t, step atBadWindow = .next t) ∧ opsel 0xEB ≠ defaultConfig.opcMov :=
  ⟨⟨_, rfl⟩, ⟨_, rfl⟩, ⟨_, rfl⟩, by decide⟩

/-- RunTerminates at its bound, StreamHasOneLinePerPair and ContinueStartsAfterOffendingWindow (no fault): program 9. -/
theorem witness_good_run : runFor 2 (startOf [0x89, 0xD8, 0x89]) = .next afterDone ∧ afterDone.status = .done ∧
    2 ≤ ([0x89, 0xD8, 0x89] : List Byte).length / 2 + 1 ∧ afterDone.out[0]? = some ⟨.mov, .ax, .bx⟩ :=
  ⟨rfl, rfl, by decide, rfl⟩

/-- ContinueStartsAfterOffendingWindow and RecordsComeOutInOrder (a fault): program 3. -/
theorem witness_bad_run : runFor 2 (startOf [0x89, 0xD8, 0xB8, 0x01, 0x89, 0xD9]) = .next afterFault ∧
    afterFault.status = .fault ∧ runFor 0 afterFault = .next afterFault := ⟨rfl, rfl, rfl⟩

/-- GoodRunDecodesWholeBuffer: two windows and a trailing byte. -/
theorem witness_GoodRunDecodesWholeBuffer :
    ∀ k, k < ([0x8B, 0xC3, 0x8A, 0x07, 0x00] : List Byte).length / 2 →
      opsel (([0x8B, 0xC3, 0x8A, 0x07, 0x00] : List Byte).getD (2 * k) 0) = defaultConfig.opcMov := by decide

/-- FaultingRunStopsAtFirstBadWindow: a bad window after a good one and before another bad one. -/
theorem witness_FaultingRunStopsAtFirstBadWindow :
    1 < ([0x89, 0xD8, 0xB8, 0x01, 0x00, 0xD9] : List Byte).length / 2 ∧
    (∀ k, k < 1 → opsel (([0x89, 0xD8, 0xB8, 0x01, 0x00, 0xD9] : List Byte).getD (2 * k) 0) = defaultConfig.opcMov) ∧
    opsel (([0x89, 0xD8, 0xB8, 0x01, 0x00, 0xD9] : List Byte).getD (2 * 1) 0) ≠ defaultConfig.opcMov := by decide

/-- TrailingByteChangesNothing: the empty buffer and one window. -/
theorem witness_TrailingByteChangesNothing :
    ([] : List Byte).length % 2 = 0 ∧ ([0x89, 0xD8] : List Byte).length % 2 = 0 := by decide

/-- BoundedEndTestNeverWraps: the narrowest counter at its largest value, where a plain addition would wrap. -/
theorem witness_BoundedEndTestNeverWraps : 0 < 1 ∧ endTestOfWidth 1 1#1 1#1 = true := by decide

/-- OnlySelectorMismatchRaises: both sides of its equivalence. -/
theorem witness_OnlySelectorMismatchRaises :
    atBadWindow.status = .run ∧ atBadWindow.pos + 2 ≤ atBadWindow.len ∧ opsel 0xB8 ≠ atBadWindow.cfg.opcMov ∧
    (startOf [0x89, 0xD8]).status = .run ∧ opsel 0x89 = (startOf [0x89, 0xD8]).cfg.opcMov := by decide

/-- StatusOutputsAgreeWithRun and HostIsGivenBackItsResults: a state of each status, with an odd length in DONE. -/
theorem witness_StatusOutputsAgreeWithRun : Inv atBadWindow ∧ Inv afterFault ∧ afterFault.errOffset = some 2 ∧
    Inv afterDone ∧ afterDone.status = .done ∧ afterDone.len % 2 = 1 :=
  ⟨witness_inv_atBadWindow, witness_inv_afterFault, rfl, witness_inv_afterDone, rfl, rfl⟩

/-- TextLineNamesBothOperands: a record and its line. -/
theorem witness_TextLineNamesBothOperands : textLine ⟨.mov, .ch, .ah⟩ = textLine ⟨.mov, .ch, .ah⟩ := rfl

/-- HostMovesFollowTheirTable: a state for each clause (a run going on, a run ended well, a run ended in a fault). -/
theorem witness_HostMovesFollowTheirTable :
    atBadWindow.status = .run ∧ afterDone.status ≠ .run ∧ afterFault.status ≠ .run := by decide

/-- ParametersChangeBetweenRunsOnly: an event in RUN, and a sequence without a new run. -/
theorem witness_ParametersChangeBetweenRunsOnly :
    (∃ z, System.next .step ⟨atBadWindow, [⟨.mov, .ax, .bx⟩]⟩ = some z) ∧
    (∃ z, System.next (.move .reset) ⟨atBadWindow, []⟩ = some z) ∧ atBadWindow.status = .run ∧
    (∃ z, System.runEvents [.step, .move .reset, .step] ⟨atBadWindow, []⟩ = some z) :=
  ⟨⟨_, rfl⟩, ⟨_, rfl⟩, rfl, ⟨_, rfl⟩⟩

/-- EventsKeepInvariantsAndTakenRecords: a fault, then a new run over another buffer with other constants, then a step. -/
theorem witness_EventsKeepInvariantsAndTakenRecords :
    Inv atBadWindow ∧ atBadWindow.out <:+ [⟨.mov, .ax, .bx⟩] ∧
    ∃ z, System.runEvents [.step, .move (.newRun otherConfig [0xE8, 0xD9]), .step]
      ⟨atBadWindow, [⟨.mov, .ax, .bx⟩]⟩ = some z :=
  ⟨witness_inv_atBadWindow, List.suffix_refl _, _, rfl⟩

/-- In RUN the host cannot supply another buffer (U10); after the fault it can (rule R193). -/
theorem test_no_new_buffer_during_run :
    hostMove (.newRun defaultConfig [0x89, 0xD9]) atBadWindow = none ∧
    hostMove (.newRun defaultConfig [0x89, 0xD9]) afterFault = some (startOf [0x89, 0xD9]) ∧
    afterFault.continueAfterFault = some (startOf [0x89, 0xD9]) := by
  decide

/-- PlacedWindowRunsNext: both clauses and a byte beside the placed window. -/
theorem witness_PlacedWindowRunsNext :
    afterFault.memWf ∧ afterFault.cfg = defaultConfig ∧ decodeTableWord 16 0x88E5 = some (.movRm8R8 3 4 5) ∧
    decodeTableWord 16 0x8CD8 = none ∧ 4 ≠ afterFault.pos ∧ 4 ≠ afterFault.pos + 1 ∧ 4 < afterFault.len := by
  decide

end Sys2Proof.Tests
end

namespace Sys2Proof.Machine

/-! ### The window at `pos`, named by its two bytes (rules R31, R41 and R142) -/

/-- A one-byte read is in range and answers the listing's byte. -/
theorem memRead_one_iff {s : State} {a : Nat} {b : Byte} :
    s.memRead a 1 = some [b] ↔ a + 1 ≤ s.len ∧ Memory.read s.mem a = b := by
  simp [State.memRead, List.range_one]

/-- Fetch answers exactly the two bytes that can be read at `pos` and `pos + 1`. -/
theorem fetchWindow_eq_some_iff {s : State} {b1 b2 : Byte} :
    fetchWindow s = some (b1, b2) ↔
      s.memRead s.pos 1 = some [b1] ∧ s.memRead (s.pos + 1) 1 = some [b2] := by
  rw [memRead_one_iff, memRead_one_iff]
  by_cases h : s.pos + 2 ≤ s.len
  · have h1 : s.pos + 1 ≤ s.len := by omega
    simp [fetchWindow_some h, h, h1]
  · simp [fetchWindow_none (Nat.lt_of_not_le h), h]

/-- In RUN the port presents the datapath's answer to the fetched window. -/
theorem outPort_of_fetchWindow {s : State} {b1 b2 : Byte} (hr : s.status = .run)
    (hf : fetchWindow s = some (b1, b2)) : outPort s = (decodePair s.cfg b1 b2).toOption := by
  simp [outPort, hr, hf]

/-- In RUN an accepted window is retired with a record made of the constants and the window's fields. -/
theorem step_of_fetchWindow_accept {s : State} {b1 b2 : Byte} (hr : s.status = .run)
    (hf : fetchWindow s = some (b1, b2)) (hm : opsel b1 = s.cfg.opcMov) :
    step s = .next (retire (recordOf s.cfg (directionBit b1) (widthBit b1) (regField b2) (rmField b2)) s) := by
  simp [step, hr, hf, decodeWindow_accept hm, exec_rowOf]

/-- In RUN any other window takes the exception. -/
theorem step_of_fetchWindow_reject {s : State} {b1 b2 : Byte} (hr : s.status = .run)
    (hf : fetchWindow s = some (b1, b2)) (hm : opsel b1 ≠ s.cfg.opcMov) :
    step s = .next (raiseUnsupportedOpcode s) := by
  simp [step, hr, hf, decodeWindow_reject hm]

/-- Settles O4: both states fetch the same window, so the port's value, and the record retired or the exception
taken, are the same expression in the constants and the two bytes; the selector of byte 1 decides which. -/
theorem windowResultDependsOnItsBytesOnly : Obligations.WindowResultDependsOnItsBytesOnly := by
  intro s s' hr hr' hcfg b1 b2 h1 h2 h1' h2'
  have hf : fetchWindow s = some (b1, b2) := fetchWindow_eq_some_iff.mpr ⟨h1, h2⟩
  have hf' : fetchWindow s' = some (b1, b2) := fetchWindow_eq_some_iff.mpr ⟨h1', h2'⟩
  refine ⟨by rw [outPort_of_fetchWindow hr hf, outPort_of_fetchWindow hr' hf', hcfg], ?_⟩
  by_cases hm : opsel b1 = s.cfg.opcMov
  · exact ⟨_, _, step_of_fetchWindow_accept hr hf hm, step_of_fetchWindow_accept hr' hf' (hcfg ▸ hm),
      by simp [hr, hr'], [_], rfl, by rw [retire_out, hcfg]⟩
  · exact ⟨_, _, step_of_fetchWindow_reject hr hf hm, step_of_fetchWindow_reject hr' hf' (hcfg ▸ hm),
      rfl, [], by simp, by simp⟩

end Sys2Proof.Machine

namespace Sys2Proof.Machine

/-! ### The frame of a step (rule R45) -/

/-- A step keeps the buffer, its length and the constants: each way in which it can end changes other fields only. -/
theorem step_frame {s t : State} (h : step s = .next t) : t.mem = s.mem ∧ t.len = s.len ∧ t.cfg = s.cfg := by
  obtain ⟨-, ⟨-, rfl⟩ | ⟨-, -, r, -, rfl⟩ | ⟨-, -, rfl⟩⟩ := step_cases h
  · exact ⟨endOfBuffer_mem s, endOfBuffer_len s, endOfBuffer_cfg s⟩
  · exact ⟨retire_mem s r, retire_len s r, retire_cfg s r⟩
  · exact ⟨raise_mem s, raise_len s, raise_cfg s⟩

/-- Settles O7: the frame of a step, and a read sees only the buffer and its length. -/
theorem stepWritesNoMemory : Obligations.StepWritesNoMemory := by
  intro s t h
  obtain ⟨hmem, hlen, hcfg⟩ := step_frame h
  exact ⟨hmem, hlen, hcfg, memRead_congr hmem hlen⟩

end Sys2Proof.Machine

namespace Sys2Proof.Machine

/-! ### Byte 2: the mode takes no part (rule R67) -/

/-- Setting the two mode bits of byte 2 changes the mode field only. -/
theorem fields_or_modeBits (b2 : Byte) : modeField (b2 ||| 0xC0#8) = 3 ∧
    regField (b2 ||| 0xC0#8) = regField b2 ∧ rmField (b2 ||| 0xC0#8) = rmField b2 := by
  revert b2
  decide

/-- On an accepted window byte 2 enters the datapath's record through its `reg` and `rm` fields alone. -/
theorem decodePair_of_fields {cfg : Config} {b1 b2 : Byte} {reg rm : RegCode} (hm : opsel b1 = cfg.opcMov)
    (hreg : regField b2 = reg) (hrm : rmField b2 = rm) :
    decodePair cfg b1 b2 = .ok (recordOf cfg (directionBit b1) (widthBit b1) reg rm, modeField b2) := by
  rw [decodePair_accept hm, hreg, hrm]

/-- Settles O14: an accepted window's record is a function of byte 1, `reg` and `rm`. Bytes 2 with the same two fields,
the mode bits set to `0b11` and the rule's four windows (`reg` = 3, `rm` = 0) among them, so give one record. -/
theorem noByteTwoIsReserved : Obligations.NoByteTwoIsReserved := by
  refine ⟨fun cfg b1 b2 hm => ⟨_, decodePair_accept hm b2, fun b2' => decodePair_of_fields hm, ?_⟩, ?_⟩
  · obtain ⟨hmode, hreg, hrm⟩ := fields_or_modeBits b2
    rw [decodePair_of_fields hm hreg hrm, hmode]
  · have hm : opsel 0x89 = defaultConfig.opcMov := by decide
    exact ⟨recordOf defaultConfig (directionBit 0x89) (widthBit 0x89) 3 0, decodePair_of_fields hm rfl rfl,
      decodePair_of_fields hm rfl rfl, decodePair_of_fields hm rfl rfl, decodePair_of_fields hm rfl rfl⟩

end Sys2Proof.Machine

namespace Sys2Proof.Machine

/-! ### Two bytes for every instruction (rule R60) -/

/-- The decoder succeeds exactly when the bytes begin with a window that decodes; what follows the window is left. -/
theorem decode_eq_ok_iff {cfg : Config} {bytes rest : List Byte} {i : Instr} :
    decode cfg bytes = .ok (i, rest) ↔ ∃ b1 b2, bytes = b1 :: b2 :: rest ∧ decodeWindow cfg b1 b2 = .ok i := by
  match bytes with
  | [] => simp [decode]
  | [_] => simp [decode]
  | b1 :: b2 :: tail =>
    by_cases hm : opsel b1 = cfg.opcMov
    · simp [decode, decodeWindow_accept hm, and_comm, and_assoc]
    · simp [decode, decodeWindow_reject hm]

/-- A step that stays in RUN retires a record: the other two ways to end a step leave RUN. -/
theorem step_run_retires {s t : State} (h : step s = .next t) (hr : t.status = .run) : ∃ r, t = retire r s := by
  obtain ⟨-, ⟨-, rfl⟩ | ⟨-, -, r, -, rfl⟩ | ⟨-, -, rfl⟩⟩ := step_cases h
  · simp at hr
  · exact ⟨r, rfl⟩
  · simp at hr

/-- Settles O9: a successful decode takes the window at the head of the bytes, and a step that stays in RUN retires it. -/
theorem instructionsAreTwoBytes : Obligations.InstructionsAreTwoBytes := by
  refine ⟨fun cfg bytes i rest h => ?_, fun s t h hr => ?_⟩
  · obtain ⟨b1, b2, rfl, -⟩ := decode_eq_ok_iff.mp h
    exact ⟨rfl, rfl⟩
  · obtain ⟨r, rfl⟩ := step_run_retires h hr
    exact retire_pos s r

end Sys2Proof.Machine

namespace Sys2Proof

/-! ### The fields of a byte as positions of the bit splitter (rule R80) -/

/-- Element `i` of the bit splitter's sequence is bit `7 - i` of the byte. -/
theorem getElem?_bitFieldExtractor (b : Byte) {i : Nat} (hi : i < 8) :
    (bitFieldExtractor b)[i]? = some (b.getLsbD (7 - i)) := by
  interval_cases i <;> rfl

/-- The element for position `j` of an `n`-bit slice, counted from the slice's most significant bit: a slice whose lowest
bit is `lo` begins at element `8 - (lo + n)`. -/
theorem getElem?_bitFieldExtractor_slice (b : Byte) {lo n i j : Nat} (hi : i + (lo + n) = 8 + j) (hj : j < n) :
    (bitFieldExtractor b)[i]? = some ((b.extractLsb' lo n).getMsbD j) := by
  have hpos : 7 - i = lo + (n - 1 - j) := by omega
  have hbit : n - 1 - j < n := by omega
  rw [getElem?_bitFieldExtractor b (by omega), hpos, BitVec.getMsbD_eq_getLsbD, BitVec.getLsbD_extractLsb']
  simp [hj, hbit]

/-- Settles O16: the direction and width bits are elements 6 and 7, and each wider field is a slice of the byte, so
its positions follow from its lowest bit and its width. -/
theorem bitSplitterIsMostSignificantFirst : Obligations.BitSplitterIsMostSignificantFirst := by
  refine fun b => ⟨⟨rfl, fun i => getElem?_bitFieldExtractor b⟩, ?opsel, ?direction, ?width, ?mode, ?reg, ?rm⟩
  case direction => exact getElem?_bitFieldExtractor b (by decide)
  case width => exact getElem?_bitFieldExtractor b (by decide)
  case opsel => exact fun j => getElem?_bitFieldExtractor_slice b (by omega)
  case mode => exact fun j => getElem?_bitFieldExtractor_slice b (by omega)
  case reg => exact fun j => getElem?_bitFieldExtractor_slice b (by omega)
  case rm => exact fun j => getElem?_bitFieldExtractor_slice b (by omega)

end Sys2Proof

namespace Sys2Proof

/-! ### The first-byte decoder in numbers (rules R81 to R85) -/

/-- The opcode selector is byte 1 without its two low bits. -/
theorem opsel_toNat (b1 : Byte) : (opsel b1).toNat = b1.toNat / 4 := by
  have hlt : b1.toNat / 4 < 2 ^ 6 := by omega
  rw [opsel, BitVec.extractLsb'_toNat, Nat.shiftRight_eq_div_pow, Nat.mod_eq_of_lt hlt]

/-- The opcode match is an equality of numbers. -/
theorem opsel_eq_iff {b1 : Byte} {sel : OpSel} : opsel b1 = sel ↔ b1.toNat / 4 = sel.toNat := by
  rw [← BitVec.toNat_inj, opsel_toNat]

/-- The direction bit is bit 1 of the number. -/
theorem directionBit_eq_testBit (b1 : Byte) : directionBit b1 = b1.toNat.testBit 1 := rfl

/-- The width bit is bit 0 of the number. -/
theorem widthBit_eq_testBit (b1 : Byte) : widthBit b1 = b1.toNat.testBit 0 := rfl

/-- On a byte whose selector matches the first-byte decoder answers the triple of its two flag bits. -/
theorem firstByteDecoder_accept {cfg : Config} {b1 : Byte} (hm : opsel b1 = cfg.opcMov) :
    firstByteDecoder cfg b1 = .ok (.mov, directionOf cfg (directionBit b1), widthOf cfg (widthBit b1)) :=
  if_pos hm

/-- On any other byte it answers the condition. -/
theorem firstByteDecoder_reject {cfg : Config} {b1 : Byte} (hm : opsel b1 ≠ cfg.opcMov) :
    firstByteDecoder cfg b1 = .error .unsupportedOpcode :=
  if_neg hm

/-- Settles O17: the selector is the quotient by four, and the decoder's two cases are those of the match on it. -/
theorem firstByteDecoderMatchesSelector : Obligations.FirstByteDecoderMatchesSelector := by
  refine fun cfg b1 => ⟨opsel_toNat b1, ?_⟩
  by_cases hm : opsel b1 = cfg.opcMov
  · rw [firstByteDecoder_accept hm, if_pos (opsel_eq_iff.mp hm), directionBit_eq_testBit, widthBit_eq_testBit]
    rfl
  · rw [firstByteDecoder_reject hm, if_neg (mt opsel_eq_iff.mpr hm)]

end Sys2Proof

namespace Sys2Proof

/-! ### The register resolver (rules R100 to R102) -/

/-- The row of the table for a width. -/
def RegTab.row (t : RegTab) (w : OperandWidth) : Vector RegisterPlace 8 :=
  match w with
  | .narrow => t.narrow
  | .wide => t.wide

/-- A well-formed row holds names of its width only, each at one position. -/
theorem RegTab.rowWellFormed_iff {w : OperandWidth} {row : Vector RegisterPlace 8} :
    RegTab.rowWellFormed w row = true ↔ (∀ p ∈ row.toList, Machine.placeWidth p = w) ∧ row.toList.Nodup := by
  simp only [RegTab.rowWellFormed, Bool.and_eq_true, List.all_eq_true, beq_iff_eq, decide_eq_true_eq]

/-- A configuration is well formed when the row of each width is. -/
theorem Config.wellFormed_iff {cfg : Config} :
    cfg.wellFormed = true ↔ ∀ w, RegTab.rowWellFormed w (cfg.regTab.row w) = true := by
  rw [Config.wellFormed, RegTab.wellFormed, Bool.and_eq_true]
  refine ⟨fun ⟨hn, hw⟩ w => ?_, fun h => ⟨h .narrow, h .wide⟩⟩
  cases w with
  | narrow => exact hn
  | wide => exact hw

end Sys2Proof

namespace Sys2Proof.Machine

/-- The resolver reads the row of its width at the code. -/
theorem resolve_eq_getElem (cfg : Config) (w : OperandWidth) (code : RegCode) :
    resolve cfg w code = (cfg.regTab.row w)[code.toNat]'(code.isLt) := by
  cases w <;> rfl

/-- Each code is a position of the row. -/
theorem getElem?_row (cfg : Config) (w : OperandWidth) (code : RegCode) :
    (cfg.regTab.row w)[code.toNat]? = some (resolve cfg w code) := by
  rw [resolve_eq_getElem]
  exact Vector.getElem?_eq_getElem code.isLt

/-- Settles O19: the rows of the two widths, read at the code. -/
theorem resolverReadsTable : Obligations.ResolverReadsTable :=
  fun cfg code => ⟨getElem?_row cfg .narrow code, getElem?_row cfg .wide code⟩

/-- The default table resolves a name's own width and code (the table of rule R21) to the name. -/
theorem resolve_defaultConfig_placeCode (p : RegisterPlace) :
    resolve defaultConfig (placeWidth p) (placeCode p) = p := by
  cases p <;> rfl

/-- A name is determined by its width and its code. -/
theorem place_ext {p q : RegisterPlace} (hw : placeWidth p = placeWidth q) (hc : placeCode p = placeCode q) :
    p = q := by
  rw [← resolve_defaultConfig_placeCode p, hw, hc, resolve_defaultConfig_placeCode]

section WellFormedTable
variable {cfg : Config} (hwf : cfg.wellFormed = true)
include hwf

/-- The resolver answers a name of the width it is asked for. -/
theorem placeWidth_resolve (w : OperandWidth) (code : RegCode) : placeWidth (resolve cfg w code) = w := by
  obtain ⟨hwidth, -⟩ := RegTab.rowWellFormed_iff.mp (Config.wellFormed_iff.mp hwf w)
  apply hwidth
  rw [resolve_eq_getElem, Vector.mem_toList_iff]
  exact Vector.getElem_mem code.isLt

/-- No two codes under the same width resolve to the same name. -/
theorem resolve_injective (w : OperandWidth) : Function.Injective (resolve cfg w) := by
  obtain ⟨-, hnodup⟩ := RegTab.rowWellFormed_iff.mp (Config.wellFormed_iff.mp hwf w)
  intro c c' h
  have hlt : c.toNat < (cfg.regTab.row w).toList.length := by
    rw [Vector.length_toList]
    exact c.isLt
  refine BitVec.eq_of_toNat_eq ((List.getElem?_inj hlt hnodup).mp ?_)
  rw [Vector.getElem?_toList, Vector.getElem?_toList, getElem?_row, getElem?_row, h]

/-- Within a width the code of the resolved name is a function of the eight codes to themselves; it is injective, so
every code is the code of a resolved name. -/
theorem placeCode_resolve_surjective (w : OperandWidth) :
    Function.Surjective (fun code => placeCode (resolve cfg w code)) := by
  refine Finite.injective_iff_surjective.mp fun c c' h => resolve_injective hwf w (place_ext ?_ h)
  rw [placeWidth_resolve hwf, placeWidth_resolve hwf]

/-- The names of a width are those its codes resolve to. -/
theorem placeWidth_eq_iff_exists_resolve (w : OperandWidth) (p : RegisterPlace) :
    placeWidth p = w ↔ ∃ code, resolve cfg w code = p := by
  constructor
  · intro hw
    obtain ⟨code, hcode⟩ := placeCode_resolve_surjective hwf w (placeCode p)
    exact ⟨code, place_ext (by rw [placeWidth_resolve hwf, hw]) hcode⟩
  · rintro ⟨code, rfl⟩
    exact placeWidth_resolve hwf w code

/-- Two pairs that resolve to one name have their width in common, and then the same code; a name is reached at its own
width. -/
theorem resolve_pair_bijective :
    Function.Bijective (fun x : OperandWidth × RegCode => resolve cfg x.1 x.2) := by
  constructor
  · rintro ⟨w, c⟩ ⟨w', c'⟩ (h : resolve cfg w c = resolve cfg w' c')
    obtain rfl : w = w' := by rw [← placeWidth_resolve hwf w c, h, placeWidth_resolve hwf]
    rw [resolve_injective hwf w h]
  · intro p
    obtain ⟨code, hcode⟩ := (placeWidth_eq_iff_exists_resolve hwf (placeWidth p) p).mp rfl
    exact ⟨(placeWidth p, code), hcode⟩

end WellFormedTable

/-- Settles O21: the default table is checked; for any well-formed one distinct names in each row give injectivity, and
as each width has as many codes as names, the rest. -/
theorem resolverIsBijective : Obligations.ResolverIsBijective := by
  refine ⟨by decide, fun cfg hwf => ⟨fun w => ⟨resolve_injective hwf w, ?_⟩, resolve_pair_bijective hwf⟩⟩
  exact placeWidth_eq_iff_exists_resolve hwf w

end Sys2Proof.Machine

namespace Sys2Proof

/-! ### Flipping the direction bit of byte 1 (rules R61 and R84) -/

/-- Exclusive or with 2 flips the direction bit of byte 1 and keeps its two other fields. -/
theorem fields_xor_directionBit (b1 : Byte) : opsel (b1 ^^^ 2#8) = opsel b1 ∧
    directionBit (b1 ^^^ 2#8) = !directionBit b1 ∧ widthBit (b1 ^^^ 2#8) = widthBit b1 := by
  revert b1
  decide

end Sys2Proof

namespace Sys2Proof.Machine

/-! ### The assembler (rules R110 to R112) -/

/-- Settles O22: one equation per direction, so the operands are the two places as they stand or swapped. -/
theorem assemblerOrdersByDirection : Obligations.AssemblerOrdersByDirection := by
  refine fun regPlace rmPlace => ⟨rfl, rfl, fun d => ?_⟩
  cases d with
  | regIsDest => exact List.Perm.refl _
  | regIsSource => exact List.Perm.swap _ _ _

/-- The opposite direction orders the exchanged places in the same way. -/
theorem assemble_directionOf_not (cfg : Config) (d : Bool) (p q : RegisterPlace) :
    assemble p q (directionOf cfg (!d)) = assemble q p (directionOf cfg d) := by
  rcases eq_or_ne d cfg.polD with rfl | h
  · simp [directionOf, assemble]
  · simp [directionOf, h, Bool.not_eq.mpr h, assemble]

section RecordOf
variable (cfg : Config) (d w : Bool) (reg rm : RegCode)

/-- Flipping the direction bit of a record amounts to exchanging its two fields (rule R126, law (b)). -/
theorem recordOf_not_direction : recordOf cfg (!d) w reg rm = recordOf cfg d w rm reg := by
  simp only [recordOf, assemble_directionOf_not]

/-- Exchanging the two fields exchanges the two operands. -/
theorem recordOf_swap_fields : recordOf cfg d w rm reg = { recordOf cfg d w reg rm with
    destination := (recordOf cfg d w reg rm).source, source := (recordOf cfg d w reg rm).destination } := by
  unfold recordOf
  cases directionOf cfg d with
  | regIsDest => rfl
  | regIsSource => rfl

/-- Under a bijective table a record's two operands are one name exactly when its two fields are one code: both are
resolved at the same width. -/
theorem recordOf_destination_eq_source_iff (hwf : cfg.wellFormed = true) :
    (recordOf cfg d w reg rm).destination = (recordOf cfg d w reg rm).source ↔ reg = rm := by
  have hinj := resolve_injective hwf (widthOf cfg w)
  unfold recordOf
  cases directionOf cfg d with
  | regIsDest => exact hinj.eq_iff
  | regIsSource => exact hinj.eq_iff.trans eq_comm

end RecordOf

/-- The datapath succeeds exactly on a matching selector, with the record of the window's fields and the mode. -/
theorem decodePair_eq_ok_iff {cfg : Config} {b1 b2 : Byte} {r : DecodedInstruction} {m : ModeField} :
    decodePair cfg b1 b2 = .ok (r, m) ↔ opsel b1 = cfg.opcMov ∧
      recordOf cfg (directionBit b1) (widthBit b1) (regField b2) (rmField b2) = r ∧ modeField b2 = m := by
  by_cases hm : opsel b1 = cfg.opcMov
  · simp [decodePair_accept hm, hm]
  · simp [decodePair_reject hm, hm]

/-- On an accepted window, flipping the direction bit exchanges the two fields in the record. -/
theorem decodePair_xor_directionBit {cfg : Config} {b1 : Byte} (hm : opsel b1 = cfg.opcMov) (b2 : Byte) :
    decodePair cfg (b1 ^^^ 2#8) b2 =
      .ok (recordOf cfg (directionBit b1) (widthBit b1) (rmField b2) (regField b2), modeField b2) := by
  obtain ⟨hsel, hd, hw⟩ := fields_xor_directionBit b1
  rw [decodePair_accept (hsel.trans hm), hd, hw, recordOf_not_direction]

/-- Settles O23: operands agree exactly when the fields do, and flipping the direction bit exchanges the fields, which
is no change when they agree and otherwise exchanges the operands. -/
theorem equalFieldsGiveEqualOperands : Obligations.EqualFieldsGiveEqualOperands := by
  intro cfg b1 b2 r m hwf h
  obtain ⟨hm, rfl, rfl⟩ := decodePair_eq_ok_iff.mp h
  have heq := recordOf_destination_eq_source_iff cfg (directionBit b1) (widthBit b1) (regField b2) (rmField b2) hwf
  rw [decodePair_xor_directionBit hm]
  refine ⟨fun hfields => ⟨heq.mpr hfields, by rw [hfields]⟩, fun hfields => ⟨mt heq.mp hfields, ?_⟩⟩
  rw [recordOf_swap_fields]

end Sys2Proof.Machine

namespace Sys2Proof

/-! ### The fields of byte 2 in numbers (rule R87) -/

/-- A slice of a byte is the number without the bits below the slice, cut to the slice's width. -/
theorem extractLsb'_eq_ofNat_div (b : Byte) (lo n : Nat) :
    b.extractLsb' lo n = BitVec.ofNat n (b.toNat / 2 ^ lo) := by
  rw [← Nat.shiftRight_eq_div_pow]
  rfl

/-- The mode is byte 2 without its six low bits. -/
theorem modeField_eq_ofNat (b2 : Byte) : modeField b2 = BitVec.ofNat 2 (b2.toNat / 64) :=
  extractLsb'_eq_ofNat_div b2 6 2

/-- The `reg` field is byte 2 without its three low bits, cut to three bits. -/
theorem regField_eq_ofNat (b2 : Byte) : regField b2 = BitVec.ofNat 3 (b2.toNat / 8) :=
  extractLsb'_eq_ofNat_div b2 3 3

/-- The `rm` field is byte 2 cut to three bits. -/
theorem rmField_eq_ofNat (b2 : Byte) : rmField b2 = BitVec.ofNat 3 b2.toNat := rfl

end Sys2Proof

namespace Sys2Proof.Machine

/-! ### The datapath (rules R120 and R121) -/

section RecordOfDirection
variable {cfg : Config} {d : Bool} (w : Bool) (reg rm : RegCode)

/-- With the direction bit at `POL_D` the `reg` field's place is the destination (rules R84 and R110). -/
theorem recordOf_of_eq_polD (hd : d = cfg.polD) : recordOf cfg d w reg rm =
    ⟨.mov, resolve cfg (widthOf cfg w) reg, resolve cfg (widthOf cfg w) rm⟩ := by
  rw [recordOf, directionOf, if_pos hd]
  rfl

/-- With the direction bit at the other value it is the source. -/
theorem recordOf_of_ne_polD (hd : d ≠ cfg.polD) : recordOf cfg d w reg rm =
    ⟨.mov, resolve cfg (widthOf cfg w) rm, resolve cfg (widthOf cfg w) reg⟩ := by
  rw [recordOf, directionOf, if_neg hd]
  rfl

end RecordOfDirection

/-- Settles O24: the selector decides between the condition and the record of the fields, and the direction bit the
order of the record's two places; each field is then written as a number. -/
theorem datapathChainsItsStages : Obligations.DatapathChainsItsStages := by
  intro cfg b1 b2 width regPlace rmPlace
  by_cases hm : opsel b1 = cfg.opcMov
  · rw [decodePair_accept hm, if_neg (not_not.mpr (opsel_eq_iff.mp hm)), modeField_eq_ofNat, regField_eq_ofNat,
      rmField_eq_ofNat, directionBit_eq_testBit]
    by_cases hd : b1.toNat.testBit 1 = cfg.polD
    · rw [recordOf_of_eq_polD _ _ _ hd, if_pos hd]
      rfl
    · rw [recordOf_of_ne_polD _ _ _ hd, if_neg hd]
      rfl
  · rw [decodePair_reject hm, if_pos (mt opsel_eq_iff.mpr hm)]

/-- Settles O25: a matching selector is accepted with a record of byte 1, `reg` and `rm`, which byte 2 shares with every
byte that puts another mode before the same two fields. -/
theorem datapathFailsOnOtherSelectorsOnly : Obligations.DatapathFailsOnOtherSelectorsOnly := by
  refine fun cfg b1 => ⟨decodePair_reject, fun hm b2 => ⟨_, fun m => ⟨?_, decodePair_accept hm b2⟩⟩⟩
  rw [decodePair_accept hm, modeField_encodeSecond, regField_encodeSecond, rmField_encodeSecond]

end Sys2Proof.Machine

namespace Sys2Proof.Machine

/-! ### A run is bounded by its buffer (rule R147) -/

/-- How many steps a run can still take: one for each whole window left and one that ends it; none outside RUN. -/
def stepsLeft (s : State) : Nat := if s.status = .run then (s.len - s.pos) / 2 + 1 else 0

/-- In RUN there is a step for each whole window left, and one that ends the run. -/
theorem stepsLeft_run {s : State} (hr : s.status = .run) : stepsLeft s = (s.len - s.pos) / 2 + 1 := if_pos hr

/-- Outside RUN none is left, fewer than in any state in RUN. -/
theorem stepsLeft_lt_of_ne_run {s t : State} (hr : s.status = .run) (ht : t.status ≠ .run) :
    stepsLeft t < stepsLeft s := by
  rw [stepsLeft_run hr, stepsLeft, if_neg ht]
  exact Nat.succ_pos _

/-- Every step uses one up: a retired window is one fewer in the buffer, and any other step leaves RUN. -/
theorem stepsLeft_lt_of_step {s t : State} (h : step s = .next t) : stepsLeft t < stepsLeft s := by
  obtain ⟨hr, ⟨-, rfl⟩ | ⟨hl, -, r, -, rfl⟩ | ⟨-, -, rfl⟩⟩ := step_cases h
  · exact stepsLeft_lt_of_ne_run hr (by simp)
  · rw [stepsLeft_run hr, stepsLeft_run (s := retire r s) hr, retire_len, retire_pos]
    omega
  · exact stepsLeft_lt_of_ne_run hr (by simp)

/-- A run of `k` steps has used up at least `k`. -/
theorem add_stepsLeft_le_of_runFor {k : Nat} {s t : State} (h : runFor k s = .next t) :
    k + stepsLeft t ≤ stepsLeft s := by
  induction k generalizing s with
  | zero =>
    obtain rfl : s = t := Host.Outcome.next.inj h
    exact (Nat.zero_add _).le
  | succ k ih =>
    cases hs : step s with
    | next u =>
      have hu : k + stepsLeft t ≤ stepsLeft u := ih (runFor_succ_next hs k ▸ h)
      have hlt : stepsLeft u < stepsLeft s := stepsLeft_lt_of_step hs
      omega
    | fault f => simp [runFor_succ, hs] at h
    | refused r => simp [runFor_succ, hs] at h

/-- Some number of steps leads out of RUN: in RUN a step is enabled, and it leaves fewer. -/
theorem exists_runFor_ended (s : State) : ∃ k t, runFor k s = .next t ∧ (t.status = .done ∨ t.status = .fault) := by
  cases hs : s.status with
  | done => exact ⟨0, s, rfl, .inl hs⟩
  | fault => exact ⟨0, s, rfl, .inr hs⟩
  | run =>
    obtain ⟨u, hu⟩ := step_enabled hs
    have hlt : stepsLeft u < stepsLeft s := stepsLeft_lt_of_step hu
    obtain ⟨k, t, hrun, hend⟩ := exists_runFor_ended u
    exact ⟨k + 1, t, runFor_succ_next hu k ▸ hrun, hend⟩
termination_by stepsLeft s

/-- Settles O42: the steps left at the start bound every run, the one that leads out of RUN among them. -/
theorem runTerminates : Obligations.RunTerminates := by
  intro cfg bytes
  have hbound : ∀ k t, runFor k (State.start cfg bytes) = .next t → k ≤ bytes.length / 2 + 1 := fun k t h =>
    calc k ≤ k + stepsLeft t := Nat.le_add_right k _
      _ ≤ stepsLeft (State.start cfg bytes) := add_stepsLeft_le_of_runFor h
      _ = bytes.length / 2 + 1 := stepsLeft_run (start_status bytes cfg)
  obtain ⟨k, t, hrun, hend⟩ := exists_runFor_ended (State.start cfg bytes)
  exact ⟨⟨k, t, hbound k t hrun, hrun, hend⟩, hbound⟩

end Sys2Proof.Machine

namespace Sys2Proof.Machine

/-! ### Advance and stop (rules R142 and R149) -/

/-- In RUN a window on which the datapath answers is retired with its record, and the port presents the answer. -/
theorem step_of_fetchWindow_ok {s : State} {b1 b2 : Byte} {r : DecodedInstruction} {m : ModeField}
    (hr : s.status = .run) (hf : fetchWindow s = some (b1, b2)) (hd : decodePair s.cfg b1 b2 = .ok (r, m)) :
    step s = .next (retire r s) ∧ outPort s = some (r, m) := by
  refine ⟨?_, by rw [outPort_of_fetchWindow hr hf, hd]; rfl⟩
  obtain ⟨hm, rfl, -⟩ := decodePair_eq_ok_iff.mp hd
  exact step_of_fetchWindow_accept hr hf hm

/-- Settles O37: the two bytes are the fetched window, and `retire` is the whole change. -/
theorem successfulDecodeAppendsRecord : Obligations.SuccessfulDecodeAppendsRecord :=
  fun _ _ _ _ _ hr h1 h2 hd => step_of_fetchWindow_ok hr (fetchWindow_eq_some_iff.mpr ⟨h1, h2⟩) hd

/-- Two whole bytes at `pos` can be read one at a time. -/
theorem memRead_window {s : State} (hl : s.pos + 2 ≤ s.len) :
    s.memRead s.pos 1 = some [Memory.read s.mem s.pos] ∧
      s.memRead (s.pos + 1) 1 = some [Memory.read s.mem (s.pos + 1)] :=
  fetchWindow_eq_some_iff.mp (fetchWindow_some hl)

/-- Settles O41: the three ways a step can end are the three flows, every instruction retires one record, and the
decoder rejects every other selector. -/
theorem controlFlowIsAdvanceOrStop : Obligations.ControlFlowIsAdvanceOrStop := by
  refine ⟨fun s t h => ?_, fun i s t h => ?_, fun _ _ b2 hm => decodeWindow_reject hm b2⟩
  · obtain ⟨hr, ⟨hl, rfl⟩ | ⟨hl, -, r, hd, rfl⟩ | ⟨hl, hm, rfl⟩⟩ := step_cases h
    · exact .inr (.inl ⟨hl, rfl⟩)
    · obtain ⟨h1, h2⟩ := memRead_window hl
      exact .inl ⟨hr, _, _, r, _, h1, h2, hd, rfl⟩
    · obtain ⟨h1, h2⟩ := memRead_window hl
      exact .inr (.inr ⟨_, _, h1, h2, decodePair_reject hm _, rfl⟩)
  · obtain ⟨r, hi⟩ := exec_retires i s
    obtain rfl : retire r s = t := Host.Outcome.next.inj (hi.symm.trans h)
    exact retire_pos s r

end Sys2Proof.Machine

namespace Sys2Proof.Machine

/-! ### The text line and its reader (rules R161 and R162) -/

/-- The sixteen names of rule R21, the Narrow set and then the Wide set, each in code order. -/
def allPlaces : List RegisterPlace :=
  [.al, .cl, .dl, .bl, .ah, .ch, .dh, .bh, .ax, .cx, .dx, .bx, .sp, .bp, .si, .di]

theorem mem_allPlaces (p : RegisterPlace) : p ∈ allPlaces := by
  cases p <;> decide

/-- The table of rule R162. -/
theorem map_placeName_allPlaces : allPlaces.map placeName =
    ["al", "cl", "dl", "bl", "ah", "ch", "dh", "bh", "ax", "cx", "dx", "bx", "sp", "bp", "si", "di"] := rfl

/-- The table of rule R162 holds no text twice, and every name stands in it. -/
theorem placeName_injective : Function.Injective placeName := by
  have hnodup : (allPlaces.map placeName).Nodup := by
    rw [map_placeName_allPlaces]
    decide
  exact fun p q h => List.inj_on_of_nodup_map hnodup (mem_allPlaces p) (mem_allPlaces q) h

/-- Every name has two letters, so the places of the comma and of the source's name in a line are fixed. -/
@[simp] theorem length_toList_placeName (p : RegisterPlace) : (placeName p).toList.length = 2 := by
  cases p <;> rfl

/-- The characters of a line: each operand's name stands behind a text that is the same for every record. -/
theorem toList_textLine (r : DecodedInstruction) : (textLine r).toList =
    "mov ".toList ++ ((placeName r.destination).toList ++ (", ".toList ++ (placeName r.source).toList)) := by
  simp [textLine, opcodeName]

/-- A line determines its record: behind the fixed `mov ` the destination's name is the next two characters, and behind
the fixed comma and space the source's name is the rest. -/
theorem textLine_injective : Function.Injective textLine := by
  intro r r' h
  have hchars := congrArg String.toList h
  rw [toList_textLine, toList_textLine, List.append_cancel_left_eq] at hchars
  obtain ⟨hdest, hrest⟩ := List.append_inj hchars (by simp only [length_toList_placeName])
  have hsource := List.append_cancel_left hrest
  obtain ⟨⟨⟩, d, s⟩ := r
  obtain ⟨⟨⟩, d', s'⟩ := r'
  obtain rfl : d = d' := placeName_injective (String.toList_injective hdest)
  obtain rfl : s = s' := placeName_injective (String.toList_injective hsource)
  rfl

/-- Settles O52: the one mnemonic is `mov`, the names are the table's, and a line determines its record. -/
theorem textLineNamesBothOperands : Obligations.TextLineNamesBothOperands :=
  ⟨fun ⟨.mov, _, _⟩ => rfl, map_placeName_allPlaces, textLine_injective⟩

end Sys2Proof.Machine

namespace Sys2Proof.Machine

/-! ### The one exception (rule R172) -/

/-- A step ends in FAULT exactly when it was taken on a whole window with another selector: a step that finds fewer
than two bytes ends in DONE, and one that retires a record stays in RUN. -/
theorem step_status_eq_fault_iff {s t : State} (h : step s = .next t) : t.status = .fault ↔
    s.pos + 2 ≤ s.len ∧ opsel (Memory.read s.mem s.pos) ≠ s.cfg.opcMov := by
  obtain ⟨hr, ⟨hl, rfl⟩ | ⟨-, hm, r, -, rfl⟩ | ⟨hl, hm, rfl⟩⟩ := step_cases h
  · simp [Nat.not_le_of_lt hl]
  · simp [hr, hm]
  · simp [hl, hm]

/-- Settles O48: a step in RUN is enabled, and the byte 1 that can be read at `pos` of a whole window is the one whose
selector the step compared. -/
theorem onlySelectorMismatchRaises : Obligations.OnlySelectorMismatchRaises := by
  intro s hr
  obtain ⟨t, h⟩ := step_enabled hr
  refine ⟨t, h, (step_status_eq_fault_iff h).trans (and_congr_right fun hl => ?_)⟩
  obtain ⟨hread, -⟩ := memRead_window hl
  simp [hread]

end Sys2Proof.Machine

namespace Sys2Proof.Machine

/-! ### What steps and runs do to the records put out (rule R195) -/

/-- A step keeps the records put out and appends one at the end, or none: only `retire` puts out a record. -/
theorem step_out {s t : State} (h : step s = .next t) : t.out = s.out ∨ ∃ r, t.out = s.out ++ [r] := by
  obtain ⟨-, ⟨-, rfl⟩ | ⟨-, -, r, -, rfl⟩ | ⟨-, -, rfl⟩⟩ := step_cases h
  · exact .inl (endOfBuffer_out s)
  · exact .inr ⟨r, retire_out s r⟩
  · exact .inl (raise_out s)

/-- A run of one step more answers a state exactly when its first step does and the rest of it runs on from there. -/
theorem runFor_succ_eq_next_iff {k : Nat} {s t : State} :
    runFor (k + 1) s = .next t ↔ ∃ u, step s = .next u ∧ runFor k u = .next t := by
  rw [runFor_succ]
  cases step s <;> simp

/-- A run keeps the records put out, in their order, and adds at most one for each step. -/
theorem runFor_out {k : Nat} {s t : State} (h : runFor k s = .next t) :
    s.out <+: t.out ∧ t.out.length ≤ s.out.length + k := by
  induction k generalizing s with
  | zero =>
    obtain rfl : s = t := Host.Outcome.next.inj h
    exact ⟨List.prefix_rfl, le_rfl⟩
  | succ k ih =>
    obtain ⟨u, hstep, hrun⟩ := runFor_succ_eq_next_iff.mp h
    obtain ⟨hprefix, hlength⟩ := ih hrun
    obtain hout | ⟨r, hout⟩ := step_out hstep
    · rw [hout] at hprefix hlength
      exact ⟨hprefix, by omega⟩
    · rw [hout] at hprefix hlength
      rw [List.length_append, List.length_singleton] at hlength
      exact ⟨(List.prefix_append s.out [r]).trans hprefix, by omega⟩

/-- From FAULT no step is enabled, so a run that answers a state has taken none. -/
theorem eq_of_runFor_fault {k : Nat} {s t : State} (hs : s.status = .fault) (h : runFor k s = .next t) : t = s := by
  cases k with
  | zero => exact (Host.Outcome.next.inj h).symm
  | succ k =>
    obtain ⟨u, hstep, -⟩ := runFor_succ_eq_next_iff.mp h
    simp [step_fault hs] at hstep

/-- Settles O51: a step appends at most one record, a run appends those of its steps one after the other, and no run
leads out of FAULT. -/
theorem recordsComeOutInOrder : Obligations.RecordsComeOutInOrder :=
  ⟨fun _ _ h => step_out h, fun _ _ _ h => runFor_out h, fun _ _ _ hs h => by rw [eq_of_runFor_fault hs h]⟩

end Sys2Proof.Machine

namespace Sys2Proof.Machine

/-! ### Every step keeps the run invariants (rule R33) -/

section InvSteps
variable {s : State} (hi : Inv s)
include hi

/-- The pairs retired before `pos` end exactly at `pos`. -/
theorem two_mul_pos_div_two : 2 * (s.pos / 2) = s.pos :=
  Nat.two_mul_div_two_of_even (Nat.even_iff.mpr hi.posEven)

/-- Fewer than two bytes left at an even `pos` within the last whole window: `pos` is past that window. -/
theorem inv_endOfBuffer (hr : s.status = .run) (hl : s.len < s.pos + 2) : Inv (endOfBuffer s) :=
  { hi with
    doneAtEnd := fun _ => by
      have heven := hi.posEven
      have hbound := hi.posBound
      simp only [endOfBuffer_pos, endOfBuffer_len]
      omega
    faultAtWindow := fun hf => by simp at hf
    noErrOffset := fun _ => hi.noErrOffset (by simp [hr]) }

/-- The exception is taken at `pos` itself, on the whole window there. -/
theorem inv_raise (hl : s.pos + 2 ≤ s.len) (hm : opsel (inByte s s.pos) ≠ s.cfg.opcMov) :
    Inv (raiseUnsupportedOpcode s) :=
  { hi with
    doneAtEnd := fun hd => by simp at hd
    faultAtWindow := fun _ => ⟨rfl, hl, hm⟩
    noErrOffset := fun hf => absurd rfl hf }

/-- The record retired is the entry of the window at `pos`, the next one after the entries so far. -/
theorem inv_retire (hr : s.status = .run) (hl : s.pos + 2 ≤ s.len) {r : DecodedInstruction} {m : ModeField}
    (hd : decodePair s.cfg (inByte s s.pos) (inByte s (s.pos + 1)) = .ok (r, m)) : Inv (retire r s) := by
  have heven := hi.posEven
  have hlen := hi.outLength
  have hcount : (s.pos + 2) / 2 = s.pos / 2 + 1 := by omega
  have hsel : opsel (inByte s s.pos) = s.cfg.opcMov := (decodePair_eq_ok_iff.mp hd).1
  refine { hi with
    posEven := by simpa using heven
    posBound := by simp only [retire_pos, retire_len]; omega
    outLength := by simp [hlen]
    outDecoded := fun k hk => ?_
    selectorsMatch := fun k hk => ?_
    doneAtEnd := fun hdone => by simp [hr] at hdone
    faultAtWindow := fun hf => by simp [hr] at hf }
  · rw [retire_pos, hcount] at hk
    obtain hk | rfl := Nat.lt_succ_iff_lt_or_eq.mp hk
    · obtain ⟨r', m', hout, hdec⟩ := hi.outDecoded k hk
      exact ⟨r', m', by rw [retire_out, List.getElem?_append_left (hlen ▸ hk), hout], hdec⟩
    · refine ⟨r, m, by rw [retire_out, ← hlen, List.getElem?_concat_length], ?_⟩
      rw [two_mul_pos_div_two hi]
      exact hd
  · rw [retire_pos, hcount] at hk
    obtain hk | rfl := Nat.lt_succ_iff_lt_or_eq.mp hk
    · exact hi.selectorsMatch k hk
    · rw [two_mul_pos_div_two hi]
      exact hsel

end InvSteps

/-- Settles O3: each of the three ways a step can end keeps the invariants. -/
theorem stepKeepsRunInvariants : Obligations.StepKeepsRunInvariants := by
  intro s t hi h
  obtain ⟨hr, ⟨hl, rfl⟩ | ⟨hl, -, r, hd, rfl⟩ | ⟨hl, hm, rfl⟩⟩ := step_cases h
  · exact inv_endOfBuffer hi hr hl
  · exact inv_retire hi hr hl hd
  · exact inv_raise hi hl hm

end Sys2Proof.Machine

namespace Sys2Proof.Machine

/-! ### The decoder and the encoder are inverse on `Instr` (rules R60, R61 and R72) -/

/-- A window decodes exactly on a matching selector, to the row of its flag bits and fields. -/
theorem decodeWindow_eq_ok_iff {cfg : Config} {b1 b2 : Byte} {i : Instr} : decodeWindow cfg b1 b2 = .ok i ↔
    opsel b1 = cfg.opcMov ∧
      rowOf (directionBit b1) (widthBit b1) (modeField b2) (regField b2) (rmField b2) = i := by
  by_cases hm : opsel b1 = cfg.opcMov
  · simp [decodeWindow_accept hm, hm]
  · simp [decodeWindow_reject hm, hm]

/-- The window of the encoded bytes decodes to the row they were encoded from. -/
theorem decodeWindow_encoded (cfg : Config) (d w : Bool) (mode : ModeField) (reg rm : RegCode) :
    decodeWindow cfg (encodeFirst cfg d w) (encodeSecond mode reg rm) = .ok (rowOf d w mode reg rm) :=
  decodeWindow_eq_ok_iff.mpr ⟨opsel_encodeFirst cfg d w, by simp⟩

/-- Settles O12: an instruction is a row of flag bits and fields, and each survives its place in the two bytes. -/
theorem decodeInvertsEncode : Obligations.DecodeInvertsEncode := by
  intro cfg i rest _
  obtain ⟨d, w, mode, reg, rm, rfl⟩ := exists_rowOf i
  rw [encode_rowOf]
  exact decode_eq_ok_iff.mpr ⟨_, _, rfl, decodeWindow_encoded cfg d w mode reg rm⟩

/-- Settles O13: the decoded row holds every field of the two bytes, and each byte is its fields. -/
theorem encodeInvertsDecode : Obligations.EncodeInvertsDecode := by
  intro cfg bytes i rest h
  obtain ⟨b1, b2, rfl, hw⟩ := decode_eq_ok_iff.mp h
  obtain ⟨hm, rfl⟩ := decodeWindow_eq_ok_iff.mp hw
  rw [encode_rowOf, encodeFirst_fields cfg b1 hm, encodeSecond_fields]
  rfl

end Sys2Proof.Machine

namespace Sys2Proof.Machine

/-! ### The start of a run (rules R32 and R190) -/

/-- With the four variables at their start-of-run values the invariants ask only for a canonical buffer. -/
theorem inv_of_startOfRun {s : State} (hpos : s.pos = 0) (hstatus : s.status = .run) (herr : s.errOffset = none)
    (hout : s.out = []) (hmem : s.memWf) : Inv s where
  posEven := by rw [hpos]
  posBound := by rw [hpos]; exact Nat.zero_le _
  outLength := by rw [hpos, hout]; rfl
  outDecoded := fun k hk => absurd hk (by simp [hpos])
  selectorsMatch := fun k hk => absurd hk (by simp [hpos])
  doneAtEnd := fun hd => by simp [hstatus] at hd
  faultAtWindow := fun hf => by simp [hstatus] at hf
  noErrOffset := fun _ => herr
  memCanonical := hmem

theorem inv_start (cfg : Config) (bytes : List Byte) : Inv (State.start cfg bytes) :=
  inv_of_startOfRun rfl rfl rfl rfl (start_memWf cfg bytes)

/-- Settles O2: the four variables at reset are those of a start of run, and the empty listing is canonical. -/
theorem resetMeetsRunInvariants : Obligations.ResetMeetsRunInvariants :=
  inv_of_startOfRun rfl rfl rfl rfl reset_memWf

/-- Settles O1: the field values of the two reset states, read off. -/
theorem resetEntersStartOfRun : Obligations.ResetEntersStartOfRun :=
  ⟨⟨reset_pos, reset_status, reset_errOffset, reset_out, reset_mem, reset_len, rfl, rfl, rfl, rfl, rfl⟩,
    fun _ => rfl⟩

end Sys2Proof.Machine

namespace Sys2Proof.Machine

/-! ### The supplied buffer reads back (rules R40 and R41) -/

/-- The byte that the start of a run holds at an offset. -/
theorem read_start (cfg : Config) (bytes : List Byte) (a : Nat) :
    Memory.read (State.start cfg bytes).mem a = bytes.getD a 0 := by
  have h := read_ofBytes bytes 0 a
  rwa [Nat.zero_add] at h

/-- Reading `n` offsets that exist from `a` on gives that slice of the supplied bytes. -/
theorem map_read_start (cfg : Config) {bytes : List Byte} {a n : Nat} (h : a + n ≤ bytes.length) :
    (List.range n).map (fun i => Memory.read (State.start cfg bytes).mem (a + i)) = (bytes.drop a).take n := by
  refine List.ext_getElem (by simp; omega) fun i hi _ => ?_
  have hi' : a + i < bytes.length := by
    rw [List.length_map, List.length_range] at hi
    omega
  rw [List.getElem_map, List.getElem_range, read_start, List.getD_eq_getElem _ _ hi', List.getElem_take,
    List.getElem_drop]

theorem buffer_start (cfg : Config) (bytes : List Byte) : (State.start cfg bytes).buffer = bytes := by
  have h : 0 + bytes.length ≤ bytes.length := (Nat.zero_add _).le
  have hread := map_read_start cfg h
  simp only [Nat.zero_add, List.drop_zero, List.take_length] at hread
  exact hread

/-- Settles O6: a read in range is a slice of the supplied bytes, and the whole buffer is the slice of all of them. -/
theorem suppliedBufferReadsBack : Obligations.SuppliedBufferReadsBack := by
  refine fun cfg bytes => ⟨fun a n => ?_, buffer_start cfg bytes, inv_start cfg bytes⟩
  rw [State.memRead, start_len]
  exact if_ctx_congr Iff.rfl (fun h => congrArg some (map_read_start cfg h)) fun _ => rfl

end Sys2Proof.Machine

namespace Sys2Proof.Machine

/-! ### A canonical listing is determined by what it reads as (notes/assumptions/2.md) -/

/-- The entries of a canonical listing are its nonzero readings. -/
theorem mem_iff_read {m : Memory} (h : Memory.wf m) (c : Host.Cell) :
    c ∈ m ↔ Memory.read m c.1 = c.2 ∧ c.2 ≠ unlistedByte := by
  obtain ⟨hp, hv⟩ := h
  induction m with
  | nil => exact ⟨fun hc => absurd hc List.not_mem_nil, fun ⟨hval, hne⟩ => absurd hval.symm hne⟩
  | cons d m ih =>
    obtain ⟨hd, hm⟩ := List.pairwise_cons.mp hp
    have ih := ih hm fun e he => hv e (List.mem_cons_of_mem d he)
    rw [List.mem_cons, read_cons]
    constructor
    · rintro (rfl | hc)
      · exact ⟨if_pos rfl, hv c List.mem_cons_self⟩
      · rw [if_neg (Nat.ne_of_lt (hd c hc))]
        exact ih.mp hc
    · split_ifs with hoff
      · exact fun ⟨hval, _⟩ => .inl (Prod.ext hoff hval).symm
      · exact fun hread => .inr (ih.mpr hread)

/-- Two canonical listings with the same readings are one: they have the same entries, and each lists them in rising
order. -/
theorem memory_ext {m m' : Memory} (h : Memory.wf m) (h' : Memory.wf m')
    (hread : ∀ a, Memory.read m a = Memory.read m' a) : m = m' := by
  have hirrefl : Std.Irrefl (fun c c' : Host.Cell => c.1 < c'.1) := ⟨fun c => Nat.lt_irrefl c.1⟩
  have hantisymm : Std.Antisymm (fun c c' : Host.Cell => c.1 < c'.1) :=
    ⟨fun _ _ hlt hgt => absurd hlt (Nat.lt_asymm hgt)⟩
  refine List.Pairwise.eq_of_mem_iff h.1 h'.1 fun c => ?_
  rw [mem_iff_read h, mem_iff_read h', hread]

/-- No entry of a canonical state lies outside its buffer, so an offset there is unlisted. -/
theorem read_eq_unlisted_of_len_le {s : State} (h : s.memWf) {a : Nat} (ha : s.len ≤ a) :
    Memory.read s.mem a = unlistedByte := by
  obtain ⟨hwf, hrange⟩ := h
  by_contra hne
  have hlisted : (a, Memory.read s.mem a) ∈ s.mem := (mem_iff_read hwf _).mpr ⟨rfl, hne⟩
  exact absurd (hrange _ hlisted) (Nat.not_lt_of_le ha)

@[simp] theorem length_buffer (s : State) : s.buffer.length = s.len := by
  rw [State.buffer, List.length_map, List.length_range]

theorem getD_buffer {s : State} (h : s.memWf) (a : Nat) : s.buffer.getD a unlistedByte = Memory.read s.mem a := by
  rcases Nat.lt_or_ge a s.len with ha | ha
  · rw [List.getD_eq_getElem _ _ (by rwa [length_buffer])]
    simp [State.buffer]
  · rw [List.getD_eq_default _ _ (by rwa [length_buffer]), read_eq_unlisted_of_len_le h ha]

/-- Listing the bytes of a canonical buffer again gives its listing. -/
theorem ofBytes_buffer {s : State} (h : s.memWf) : Memory.ofBytes 0 s.buffer = s.mem := by
  refine memory_ext (ofBytes_wf s.buffer 0) h.1 fun a => ?_
  rw [← getD_buffer h, ← read_ofBytes s.buffer 0, Nat.zero_add]

/-- Settles O5: reset keeps the listing, its length and the constants, and the listing is the one that supplying its
own bytes makes. -/
theorem resetStartsFreshRunOverBuffer : Obligations.ResetStartsFreshRunOverBuffer := by
  intro s h
  rw [State.start, ofBytes_buffer h, length_buffer]
  rfl

end Sys2Proof.Machine

namespace Sys2Proof.Machine

/-! ### What every step keeps, every run keeps -/

/-- A predicate that every step keeps holds at the end of a run that begins with it. -/
theorem runFor_keeps {P : State → Prop} (hstep : ∀ {s t}, step s = .next t → P s → P t) {k : Nat} {s t : State}
    (h : runFor k s = .next t) (hs : P s) : P t := by
  induction k generalizing s with
  | zero =>
    obtain rfl : s = t := Host.Outcome.next.inj h
    exact hs
  | succ k ih =>
    obtain ⟨u, hu, hrun⟩ := runFor_succ_eq_next_iff.mp h
    exact ih hrun (hstep hu hs)

theorem inv_runFor {k : Nat} {s t : State} (h : runFor k s = .next t) (hi : Inv s) : Inv t :=
  runFor_keeps (fun hu hs => stepKeepsRunInvariants _ _ hs hu) h hi

/-- A run keeps the buffer, its length and the constants. -/
theorem runFor_frame {k : Nat} {s t : State} (h : runFor k s = .next t) :
    t.mem = s.mem ∧ t.len = s.len ∧ t.cfg = s.cfg := by
  refine runFor_keeps (P := fun u => u.mem = s.mem ∧ u.len = s.len ∧ u.cfg = s.cfg) ?_ h ⟨rfl, rfl, rfl⟩
  rintro u v hu ⟨hmem, hlen, hcfg⟩
  obtain ⟨hmem', hlen', hcfg'⟩ := step_frame hu
  exact ⟨hmem'.trans hmem, hlen'.trans hlen, hcfg'.trans hcfg⟩

/-- The parts of a run follow one another. -/
theorem runFor_add {k : Nat} {s t : State} (h : runFor k s = .next t) (n : Nat) :
    runFor (k + n) s = runFor n t := by
  induction k generalizing s with
  | zero =>
    obtain rfl : s = t := Host.Outcome.next.inj h
    rw [Nat.zero_add]
  | succ k ih =>
    obtain ⟨u, hu, hrun⟩ := runFor_succ_eq_next_iff.mp h
    rw [Nat.add_right_comm, runFor_succ_next hu, ih hrun]

theorem runFor_one (s : State) : runFor 1 s = step s := by
  rw [runFor_succ]
  cases step s <;> rfl

/-- The last step of a run. -/
theorem runFor_succ_last {k : Nat} {s t : State} (h : runFor k s = .next t) : runFor (k + 1) s = step t := by
  rw [runFor_add h, runFor_one]

/-- In DONE every run of at least one step is refused (rule R145). -/
theorem runFor_done {s : State} (hs : s.status = .done) (k : Nat) : runFor (k + 1) s = .refused .runEnded := by
  rw [runFor_succ, step_done hs]

/-- In FAULT every run of at least one step stops with the fault (rules R145 and R175). -/
theorem runFor_fault {s : State} (hs : s.status = .fault) (k : Nat) :
    runFor (k + 1) s = .fault .unsupportedOpcode := by
  rw [runFor_succ, step_fault hs]

/-- Settles O40: each status is one of the three cases of a step, and reset leads into RUN. -/
theorem noStepOutsideRun : Obligations.NoStepOutsideRun := by
  intro s k
  exact ⟨fun hd => runFor_done hd k, fun hf => runFor_fault hf k, step_enabled, step_enabled (restart_status s)⟩

end Sys2Proof.Machine

namespace Sys2Proof.Machine

/-! ### The closed forms of a run (44_stream_sequencer.md section 2) -/

section AcceptedWindows
variable {cfg : Config} {bytes : List Byte} {n : Nat} (hn : n ≤ bytes.length / 2)
  (hacc : ∀ k, k < n → opsel (bytes.getD (2 * k) 0) = cfg.opcMov)
include hn hacc

/-- Each of the first `n` windows that is accepted is one step, which changes `pos` and `OUT` only. -/
theorem runFor_acceptedWindows : ∃ out, runFor n (State.start cfg bytes) =
    .next { State.start cfg bytes with pos := 2 * n, out := out } := by
  induction n with
  | zero => exact ⟨[], rfl⟩
  | succ n ih =>
    obtain ⟨out, hrun⟩ := ih (Nat.le_of_succ_le hn) fun k hk => hacc k (Nat.lt_succ_of_lt hk)
    rw [runFor_succ_last hrun]
    have hwhole : 2 * n + 2 ≤ bytes.length := by omega
    have hsel : opsel (Memory.read (State.start cfg bytes).mem (2 * n)) = cfg.opcMov := by
      rw [read_start]
      exact hacc n (Nat.lt_succ_self n)
    exact ⟨_, step_accept rfl hwhole hsel⟩

/-- The records of those `n` steps are the datapath's, one for each window, in order. -/
theorem runFor_acceptedWindows_records : ∃ out : List DecodedInstruction,
    runFor n (State.start cfg bytes) = .next { State.start cfg bytes with pos := 2 * n, out := out } ∧
    out.length = n ∧ ∀ k, k < n → ∃ r m, out[k]? = some r ∧
      decodePair cfg (bytes.getD (2 * k) 0) (bytes.getD (2 * k + 1) 0) = .ok (r, m) := by
  obtain ⟨out, hrun⟩ := runFor_acceptedWindows hn hacc
  have hi := inv_runFor hrun (inv_start cfg bytes)
  have hcount : 2 * n / 2 = n := Nat.mul_div_cancel_left n Nat.two_pos
  refine ⟨out, hrun, hi.outLength.trans hcount, fun k hk => ?_⟩
  obtain ⟨r, m, hout, hdec⟩ := hi.outDecoded k (hcount.symm ▸ hk)
  simp only [inByte, read_start] at hdec
  exact ⟨r, m, hout, hdec⟩

end AcceptedWindows

/-- Settles O43: all windows are accepted, and the step after the last finds fewer than two bytes. -/
theorem goodRunDecodesWholeBuffer : Obligations.GoodRunDecodesWholeBuffer := by
  intro cfg bytes hacc
  obtain ⟨out, hrun, hlen, hrecords⟩ := runFor_acceptedWindows_records le_rfl hacc
  refine ⟨out, ?_, hlen, hrecords⟩
  have hend : bytes.length < 2 * (bytes.length / 2) + 2 := by omega
  rw [runFor_succ_last hrun]
  exact step_endOfBuffer rfl hend

/-- Settles O44: the windows before the `f`-th are accepted, the step on the `f`-th takes the exception, and from FAULT
no run goes on. -/
theorem faultingRunStopsAtFirstBadWindow : Obligations.FaultingRunStopsAtFirstBadWindow := by
  intro cfg bytes f hf hacc hbad
  obtain ⟨out, hrun, hlen, hrecords⟩ := runFor_acceptedWindows_records (Nat.le_of_lt hf) hacc
  have hwhole : 2 * f + 2 ≤ bytes.length := by omega
  have hsel : opsel (Memory.read (State.start cfg bytes).mem (2 * f)) ≠ cfg.opcMov := by
    rw [read_start]
    exact hbad
  have hfault := (runFor_succ_last hrun).trans (step_reject rfl hwhole hsel)
  refine ⟨out, hfault, hlen, hrecords, fun k => ?_⟩
  have hsplit : f + 2 + k = f + 1 + (k + 1) := by omega
  rw [hsplit, runFor_add hfault, runFor_fault (raise_status _)]

end Sys2Proof.Machine

namespace Sys2Proof.Machine

/-! ### Two runs that see the same windows (20_memory.md section 6, 44_stream_sequencer.md section 4) -/

/-- The `j`-th window of a state's buffer, if it is whole: what the fetch answers with `pos` there. -/
def windowAt (s : State) (j : Nat) : Option (Byte × Byte) := fetchWindow { s with pos := 2 * j }

/-- At an even `pos` the fetch answers one of the buffer's windows. -/
theorem fetchWindow_eq_windowAt {s : State} (heven : s.pos % 2 = 0) : fetchWindow s = windowAt s (s.pos / 2) := by
  rw [windowAt, Nat.two_mul_div_two_of_even (Nat.even_iff.mpr heven)]

/-- The windows are a matter of the listing and the length. -/
theorem windowAt_congr {s t : State} (hmem : t.mem = s.mem) (hlen : t.len = s.len) (j : Nat) :
    windowAt t j = windowAt s j := by
  simp only [windowAt, fetchWindow, fetchByte_eq, hmem, hlen]

/-- A window within the supplied bytes is two of them, whatever bytes follow. -/
theorem windowAt_start_append (cfg : Config) {bytes : List Byte} (x : List Byte) {j : Nat}
    (h : 2 * j + 2 ≤ bytes.length) : windowAt (State.start cfg (bytes ++ x)) j =
      some (bytes.getD (2 * j) 0, bytes.getD (2 * j + 1) 0) := by
  have hwhole : 2 * j + 2 ≤ (bytes ++ x).length := h.trans (by simp)
  have hfirst : 2 * j < bytes.length := by omega
  have hsecond : 2 * j + 1 < bytes.length := by omega
  rw [windowAt, fetchWindow_some hwhole, read_start, read_start, List.getD_append _ _ _ _ hfirst,
    List.getD_append _ _ _ _ hsecond]

/-- Past the last whole window there is none. -/
theorem windowAt_start_none (cfg : Config) {bytes : List Byte} {j : Nat} (h : bytes.length < 2 * j + 2) :
    windowAt (State.start cfg bytes) j = none :=
  fetchWindow_none h

/-- In RUN a fetch that answers nothing ends the run. -/
theorem step_of_fetchWindow_none {s : State} (hr : s.status = .run) (hf : fetchWindow s = none) :
    step s = .next (endOfBuffer s) := by
  simp [step, hr, hf]

/-- A view determines each of the four state variables. -/
theorem viewOf_eq_iff {s s' : State} : viewOf s = viewOf s' ↔
    s.pos = s'.pos ∧ s.status = s'.status ∧ s.errOffset = s'.errOffset ∧ s.out = s'.out := by
  simp [viewOf]

/-- Equal state variables, constants and fetched windows step alike. -/
theorem step_view_congr {s s' : State} (hview : viewOf s = viewOf s') (hcfg : s.cfg = s'.cfg)
    (hfetch : fetchWindow s = fetchWindow s') : viewOutcome (step s) = viewOutcome (step s') := by
  obtain ⟨hpos, hstatus, herr, hout⟩ := viewOf_eq_iff.mp hview
  cases hs : s.status with
  | done => rw [step_done hs, step_done (hstatus ▸ hs)]
  | fault => rw [step_fault hs, step_fault (hstatus ▸ hs)]
  | run =>
    have hs' : s'.status = .run := hstatus ▸ hs
    cases hf : fetchWindow s with
    | none =>
      rw [step_of_fetchWindow_none hs hf, step_of_fetchWindow_none hs' (hfetch ▸ hf)]
      simp [viewOutcome, viewOf, hpos, herr, hout]
    | some window =>
      obtain ⟨b1, b2⟩ := window
      by_cases hm : opsel b1 = s.cfg.opcMov
      · rw [step_of_fetchWindow_accept hs hf hm, step_of_fetchWindow_accept hs' (hfetch ▸ hf) (hcfg ▸ hm)]
        simp [viewOutcome, viewOf, hpos, hstatus, herr, hout, hcfg]
      · rw [step_of_fetchWindow_reject hs hf hm, step_of_fetchWindow_reject hs' (hfetch ▸ hf) (hcfg ▸ hm)]
        simp [viewOutcome, viewOf, hpos, hout]

theorem viewOutcome_eq_next_iff {o : Host.Outcome State Fault Refusal} {v : View} :
    viewOutcome o = .next v ↔ ∃ s, o = .next s ∧ viewOf s = v := by
  cases o <;> simp [viewOutcome]

theorem viewOutcome_eq_fault_iff {o : Host.Outcome State Fault Refusal} {f : Fault} :
    viewOutcome o = .fault f ↔ o = .fault f := by
  cases o <;> simp [viewOutcome]

theorem viewOutcome_eq_refused_iff {o : Host.Outcome State Fault Refusal} {r : Refusal} :
    viewOutcome o = .refused r ↔ o = .refused r := by
  cases o <;> simp [viewOutcome]

/-- A step leaves `pos` as it is or advances by two. -/
theorem step_pos {s t : State} (h : step s = .next t) : t.pos = s.pos ∨ t.pos = s.pos + 2 := by
  obtain ⟨-, ⟨-, rfl⟩ | ⟨-, -, r, -, rfl⟩ | ⟨-, -, rfl⟩⟩ := step_cases h
  · exact .inl (endOfBuffer_pos s)
  · exact .inr (retire_pos s r)
  · exact .inl (raise_pos s)

/-- Runs from equal state variables and constants stay alike as long as they stay within the first `m` windows and
those are the same. -/
theorem runFor_view_congr {m k : Nat} {s s' : State} (hview : viewOf s = viewOf s') (hcfg : s.cfg = s'.cfg)
    (heven : s.pos % 2 = 0) (hk : s.pos / 2 + k ≤ m) (hwin : ∀ j, j < m → windowAt s j = windowAt s' j) :
    viewOutcome (runFor k s) = viewOutcome (runFor k s') := by
  induction k generalizing s s' with
  | zero => exact congrArg Host.Outcome.next hview
  | succ k ih =>
    obtain ⟨hpos, -⟩ := viewOf_eq_iff.mp hview
    have hfetch : fetchWindow s = fetchWindow s' := by
      rw [fetchWindow_eq_windowAt heven, fetchWindow_eq_windowAt (hpos ▸ heven), ← hpos]
      exact hwin _ (by omega)
    have hstep : viewOutcome (step s') = viewOutcome (step s) := (step_view_congr hview hcfg hfetch).symm
    cases hs : step s with
    | fault f =>
      have hs' : step s' = .fault f := viewOutcome_eq_fault_iff.mp (hstep.trans (by rw [hs]; rfl))
      rw [runFor_succ, runFor_succ, hs, hs']
    | refused r =>
      have hs' : step s' = .refused r := viewOutcome_eq_refused_iff.mp (hstep.trans (by rw [hs]; rfl))
      rw [runFor_succ, runFor_succ, hs, hs']
    | next t =>
      obtain ⟨t', hs', hview'⟩ := viewOutcome_eq_next_iff.mp (hstep.trans (by rw [hs]; rfl))
      obtain ⟨hmem, hlen, hcfg₁⟩ := step_frame hs
      obtain ⟨hmem', hlen', hcfg₂⟩ := step_frame hs'
      have hadvance := step_pos hs
      rw [runFor_succ_next hs, runFor_succ_next hs']
      refine ih hview'.symm (by rw [hcfg₁, hcfg₂, hcfg]) (by omega) (by omega) fun j hj => ?_
      rw [windowAt_congr hmem hlen, windowAt_congr hmem' hlen', hwin j hj]

/-- Settles O8: the first `n` windows lie in the common bytes, and `k` steps stay within them. -/
theorem prefixDeterminesFirstWindows : Obligations.PrefixDeterminesFirstWindows := by
  intro cfg p x y n hp k hk
  refine runFor_view_congr (m := n) rfl rfl rfl (by simpa using hk) fun j hj => ?_
  have hwhole : 2 * j + 2 ≤ p.length := by omega
  rw [windowAt_start_append cfg x hwhole, windowAt_start_append cfg y hwhole]

/-- Settles O45: the appended byte completes no window, since the bytes before it are whole windows. -/
theorem trailingByteChangesNothing : Obligations.TrailingByteChangesNothing := by
  intro cfg bytes b heven k
  refine runFor_view_congr (m := k) rfl rfl rfl (by simp) fun j _ => ?_
  rcases Nat.lt_or_ge bytes.length (2 * j + 2) with hpast | hwhole
  · have hpast' : (bytes ++ [b]).length < 2 * j + 2 := by
      rw [List.length_append, List.length_singleton]
      omega
    rw [windowAt_start_none cfg hpast, windowAt_start_none cfg hpast']
  · have happend := windowAt_start_append cfg [] hwhole
    rw [List.append_nil] at happend
    rw [windowAt_start_append cfg [b] hwhole, happend]

end Sys2Proof.Machine

namespace Sys2Proof.Machine

/-! ### The decoder, the datapath and the step on one window (rules R120, R121 and R140) -/

/-- The datapath answers the condition exactly on another selector. -/
theorem decodePair_eq_error_iff {cfg : Config} {b1 b2 : Byte} :
    decodePair cfg b1 b2 = .error .unsupportedOpcode ↔ opsel b1 ≠ cfg.opcMov := by
  by_cases hm : opsel b1 = cfg.opcMov
  · simp [decodePair_accept hm, hm]
  · simp [decodePair_reject hm, hm]

/-- So does the decoder. -/
theorem decodeWindow_eq_error_iff {cfg : Config} {b1 b2 : Byte} :
    decodeWindow cfg b1 b2 = .error .unsupportedOpcode ↔ opsel b1 ≠ cfg.opcMov := by
  by_cases hm : opsel b1 = cfg.opcMov
  · simp [decodeWindow_accept hm, hm]
  · simp [decodeWindow_reject hm, hm]

/-- Settles O31: both give the window's flag bits and fields to one record, and both reject the other selectors. -/
theorem decoderAndMeaningAgreeWithDatapath : Obligations.DecoderAndMeaningAgreeWithDatapath := by
  refine fun s b1 b2 => ⟨fun i hi => ?_, decodeWindow_eq_error_iff.trans decodePair_eq_error_iff.symm⟩
  obtain ⟨hm, rfl⟩ := decodeWindow_eq_ok_iff.mp hi
  exact ⟨_, _, decodePair_accept hm b2, exec_rowOf _ _ _ _ _ s⟩

/-- In RUN the step on a window that decodes is the instruction's effect. -/
theorem step_of_fetchWindow_decodes {s : State} {b1 b2 : Byte} {i : Instr} (hr : s.status = .run)
    (hf : fetchWindow s = some (b1, b2)) (hd : decodeWindow s.cfg b1 b2 = .ok i) : step s = exec i s := by
  simp [step, hr, hf, hd]

/-- Settles O36: the two bytes that can be read are the fetched window. -/
theorem stepRunsDecodedInstruction : Obligations.StepRunsDecodedInstruction :=
  fun _ _ _ _ hr h1 h2 hd => step_of_fetchWindow_decodes hr (fetchWindow_eq_some_iff.mpr ⟨h1, h2⟩) hd

/-- In RUN a window that the datapath rejects takes the exception, and the port presents nothing. -/
theorem step_of_fetchWindow_error {s : State} {b1 b2 : Byte} (hr : s.status = .run)
    (hf : fetchWindow s = some (b1, b2)) (hd : decodePair s.cfg b1 b2 = .error .unsupportedOpcode) :
    step s = .next (raiseUnsupportedOpcode s) ∧ outPort s = none :=
  ⟨step_of_fetchWindow_reject hr hf (decodePair_eq_error_iff.mp hd), by rw [outPort_of_fetchWindow hr hf, hd]; rfl⟩

/-- In RUN with fewer than two bytes left the run ends, and the port presents nothing. -/
theorem step_of_len_lt {s : State} (hr : s.status = .run) (hl : s.len < s.pos + 2) :
    step s = .next (endOfBuffer s) ∧ outPort s = none :=
  ⟨step_endOfBuffer hr hl, by simp [outPort, hr, fetchWindow_none hl]⟩

/-- Settles O38: the exception is taken on the fetched window, and from FAULT no run goes on. -/
theorem unsupportedOpcodeHalts : Obligations.UnsupportedOpcodeHalts := by
  intro s b1 b2 hr h1 h2 hd
  obtain ⟨hstep, hport⟩ := step_of_fetchWindow_error hr (fetchWindow_eq_some_iff.mpr ⟨h1, h2⟩) hd
  exact ⟨hport, _, hstep, rfl, runFor_fault (raise_status s)⟩

/-- Settles O39: `endOfBuffer` is the whole change. -/
theorem endOfBufferEndsTheRun : Obligations.EndOfBufferEndsTheRun := fun _ => step_of_len_lt

/-! ### The output port and the records put out (rule R152) -/

/-- A step appends what the port presents, and nothing when it presents nothing. -/
theorem step_out_eq_append_outPort {s t : State} (h : step s = .next t) :
    t.out = s.out ++ ((outPort s).map Prod.fst).toList := by
  obtain ⟨hr, ⟨hl, rfl⟩ | ⟨hl, -, r, hd, rfl⟩ | ⟨hl, hm, rfl⟩⟩ := step_cases h
  · obtain ⟨-, hport⟩ := step_of_len_lt hr hl
    simp [hport]
  · obtain ⟨-, hport⟩ := step_of_fetchWindow_ok hr (fetchWindow_some hl) hd
    simp [hport]
  · obtain ⟨-, hport⟩ := step_of_fetchWindow_error hr (fetchWindow_some hl) (decodePair_reject hm _)
    simp [hport]

/-- Settles O46: the two cases of what the port presents. -/
theorem outPortPresentsAppendedRecord : Obligations.OutPortPresentsAppendedRecord := by
  intro s t h
  have hout := step_out_eq_append_outPort h
  refine ⟨fun r m hport => ?_, fun hport => ?_⟩
  · rw [hout, hport]
    rfl
  · rw [hout, hport]
    exact List.append_nil _

end Sys2Proof.Machine

namespace Sys2Proof.Machine

/-! ### The status outputs (rules R25, R150, R171 and R180) -/

theorem causeCode_eq_one_iff {s : State} : causeCode s = 1 ↔ s.status = .fault := by
  cases hs : s.status <;> simp [causeCode, hs]

theorem causeCode_eq_zero_iff {s : State} : causeCode s = 0 ↔ s.status ≠ .fault := by
  cases hs : s.status <;> simp [causeCode, hs]

section UnderInv
variable {s : State} (hi : Inv s)
include hi

/-- An error offset is held in FAULT only, and it is `pos`. -/
theorem errOffset_eq_some_iff {e : Nat} : s.errOffset = some e ↔ s.status = .fault ∧ s.pos = e := by
  by_cases hf : s.status = .fault
  · obtain ⟨herr, -, -⟩ := hi.faultAtWindow hf
    simp [herr, hf]
  · simp [hi.noErrOffset hf, hf]

theorem errOffset_ne_none_iff : s.errOffset ≠ none ↔ s.status = .fault := by
  simp [Option.ne_none_iff_exists', errOffset_eq_some_iff hi]

/-- In DONE there is a record for each whole window. -/
theorem length_out_of_done (hd : s.status = .done) : s.out.length = s.len / 2 := by
  rw [hi.outLength, hi.doneAtEnd hd, Nat.mul_div_cancel_left _ Nat.two_pos]

end UnderInv

/-- Settles O49: FAULT, the held offset and the cause number go together, the offset is `pos`, and `pos` counts the
windows. -/
theorem statusOutputsAgreeWithRun : Obligations.StatusOutputsAgreeWithRun := by
  refine fun s hi => ⟨causeCode_eq_one_iff.trans (errOffset_ne_none_iff hi).symm, causeCode_eq_zero_iff,
    fun e he => ?_, hi.outLength.symm, fun hd => ?_⟩
  · obtain ⟨hf, rfl⟩ := (errOffset_eq_some_iff hi).mp he
    obtain ⟨-, hwhole, hm⟩ := hi.faultAtWindow hf
    exact ⟨hi.posEven, _, memRead_one_iff.mpr ⟨Nat.le_of_succ_le hwhole, rfl⟩, decide_eq_false hm⟩
  · have hpos := hi.doneAtEnd hd
    rw [trailingByteDropped, decide_eq_true_iff]
    omega

/-! ### The host's continue after a fault (rule R176) -/

theorem continueAfterFault_of_fault {s : State} {e : Nat} (hs : s.status = .fault) (he : s.errOffset = some e) :
    s.continueAfterFault = some (State.start s.cfg (s.buffer.drop (e + 2))) := by
  simp [State.continueAfterFault, hs, he, hostMove_newRun]

theorem continueAfterFault_of_ne_fault {s : State} (hs : s.status ≠ .fault) : s.continueAfterFault = none := by
  cases h : s.status with
  | run => simp [State.continueAfterFault, h]
  | done => simp [State.continueAfterFault, h]
  | fault => exact absurd h hs

/-- A run keeps the bytes that the host supplied. -/
theorem buffer_runFor_start {cfg : Config} {bytes : List Byte} {k : Nat} {t : State}
    (h : runFor k (State.start cfg bytes) = .next t) : t.buffer = bytes := by
  obtain ⟨hmem, hlen, -⟩ := runFor_frame h
  rw [State.buffer, hmem, hlen]
  exact buffer_start cfg bytes

/-- Settles O50: in FAULT the held offset is `pos`, and the bytes and the constants are still those supplied. -/
theorem continueStartsAfterOffendingWindow : Obligations.ContinueStartsAfterOffendingWindow := by
  refine fun cfg bytes k t h => ⟨fun hf => ?_, continueAfterFault_of_ne_fault⟩
  obtain ⟨-, -, hcfg⟩ := runFor_frame h
  obtain ⟨herr, -, -⟩ := (inv_runFor h (inv_start cfg bytes)).faultAtWindow hf
  rw [continueAfterFault_of_fault hf herr, buffer_runFor_start h, hcfg]
  rfl

/-! ### The text stream of a good run (rules R151 and R164) -/

/-- A stream has one line before those of the records. -/
theorem length_textStream (s : State) : (textStream s).length = s.out.length + 1 := by
  rw [textStream, List.length_cons, List.length_map]

theorem getElem?_textStream_succ (s : State) (j : Nat) : (textStream s)[j + 1]? = s.out[j]?.map textLine := by
  rw [textStream, List.getElem?_cons_succ, List.getElem?_map]

/-- Settles O53: in DONE there is a record for each window of the buffer, and each record has its line; over an empty
buffer the first step ends the run. -/
theorem streamHasOneLinePerPair : Obligations.StreamHasOneLinePerPair := by
  refine ⟨fun cfg bytes k t h hd => ⟨?_, rfl, fun j r hr => ?_⟩, fun cfg => ?_⟩
  · obtain ⟨-, hlen, -⟩ := runFor_frame h
    rw [length_textStream, length_out_of_done (inv_runFor h (inv_start cfg bytes)) hd, hlen, start_len]
  · rw [getElem?_textStream_succ, hr, Option.map_some]
  · have hempty : (State.start cfg []).len < (State.start cfg []).pos + 2 := Nat.two_pos
    exact ⟨_, (runFor_one _).trans (step_endOfBuffer rfl hempty), rfl, rfl, rfl⟩

end Sys2Proof.Machine

namespace Sys2Proof.Machine

/-! ### The host at work (rules R190 to R193) -/

/-- Settles O56: one equation per move and status. -/
theorem hostMovesFollowTheirTable : Obligations.HostMovesFollowTheirTable :=
  fun s cfg bytes => ⟨hostMove_reset s, fun hs => hostMove_newRun hs cfg bytes,
    fun hs => hostMove_newRun_run hs cfg bytes⟩

/-- Settles O59: a step in RUN appends what the port presents, and the invariants fix `OUT` and the offset at either
end. -/
theorem hostIsGivenBackItsResults : Obligations.HostIsGivenBackItsResults := by
  refine fun s hi => ⟨fun hr => ⟨by simp [hostReads, hr], ?_⟩, fun hd => ⟨by simp [hostReads, hd], ?_⟩,
    fun hf => ?_⟩
  · obtain ⟨t, h⟩ := step_enabled hr
    exact ⟨t, h, step_out_eq_append_outPort h⟩
  · exact length_out_of_done hi hd
  · obtain ⟨herr, hwhole, -⟩ := hi.faultAtWindow hf
    exact ⟨s.pos, by simp [hostReads, hf, herr], hi.outLength, hwhole⟩

/-- An event other than a new run keeps the buffer, its length and the constants. -/
theorem next_frame {e : Event} {y z : System} (h : System.next e y = some z)
    (he : ∀ cfg bytes, e ≠ .move (.newRun cfg bytes)) :
    z.block.mem = y.block.mem ∧ z.block.len = y.block.len ∧ z.block.cfg = y.block.cfg := by
  obtain ⟨-, hstep, -⟩ | ⟨m, rfl, hmove, -⟩ := System.next_cases h
  · exact step_frame hstep
  · obtain ⟨-, hz⟩ | ⟨cfg, bytes, rfl, -, -⟩ := hostMove_cases hmove
    · rw [hz]
      exact ⟨restart_mem _, restart_len _, restart_cfg _⟩
    · exact absurd rfl (he cfg bytes)

/-- In RUN no event is a new run. -/
theorem ne_newRun_of_next_run {e : Event} {y z : System} (h : System.next e y = some z)
    (hr : y.block.status = .run) (cfg : Config) (bytes : List Byte) : e ≠ .move (.newRun cfg bytes) := by
  rintro rfl
  simp [System.next, hostMove_newRun_run hr] at h

/-- A sequence of events without a new run keeps the buffer, its length and the constants. -/
theorem runEvents_frame {es : List Event} {y z : System} (h : System.runEvents es y = some z)
    (hes : ∀ cfg bytes, Event.move (.newRun cfg bytes) ∉ es) :
    z.block.mem = y.block.mem ∧ z.block.len = y.block.len ∧ z.block.cfg = y.block.cfg := by
  induction es generalizing y with
  | nil =>
    obtain rfl : y = z := Option.some.inj h
    exact ⟨rfl, rfl, rfl⟩
  | cons e es ih =>
    obtain ⟨x, hx, hrest⟩ := System.runEvents_cons h
    obtain ⟨hmem, hlen, hcfg⟩ := next_frame hx fun cfg bytes he => hes cfg bytes (he ▸ List.mem_cons_self)
    obtain ⟨hmem', hlen', hcfg'⟩ := ih hrest fun cfg bytes hmv => hes cfg bytes (List.mem_cons_of_mem e hmv)
    exact ⟨hmem'.trans hmem, hlen'.trans hlen, hcfg'.trans hcfg⟩

/-- Settles O57: only a new run changes the parameters, and none happens in RUN. -/
theorem parametersChangeBetweenRunsOnly : Obligations.ParametersChangeBetweenRunsOnly := by
  refine ⟨fun e y z h hr => ?_, fun es y z => runEvents_frame⟩
  obtain ⟨hmem, hlen, hcfg⟩ := next_frame h (ne_newRun_of_next_run h hr)
  exact ⟨hmem, hlen, hcfg, memRead_congr hmem hlen⟩

/-- A host's move answers a start of run over a canonical buffer. -/
theorem inv_hostMove {m : HostMove} {s t : State} (h : hostMove m s = some t) (hi : Inv s) :
    Inv t ∧ t.out = [] := by
  obtain ⟨-, rfl⟩ | ⟨cfg, bytes, -, -, rfl⟩ := hostMove_cases h
  · exact ⟨inv_of_startOfRun rfl rfl rfl rfl (restart_memWf hi.memCanonical), rfl⟩
  · exact ⟨inv_start cfg bytes, rfl⟩

/-- With a step the host takes the record that joins `OUT`; a move empties `OUT` and takes nothing back. -/
theorem next_keeps_taken {e : Event} {y z : System} (h : System.next e y = some z) (hi : Inv y.block)
    (hout : y.block.out <:+ y.taken) : Inv z.block ∧ y.taken <+: z.taken ∧ z.block.out <:+ z.taken := by
  obtain ⟨-, hstep, htaken⟩ | ⟨m, -, hmove, htaken⟩ := System.next_cases h
  · refine ⟨stepKeepsRunInvariants _ _ hi hstep, htaken ▸ List.prefix_append _ _, ?_⟩
    obtain ⟨earlier, hearlier⟩ := hout
    exact ⟨earlier, by rw [step_out_eq_append_outPort hstep, htaken, ← hearlier, List.append_assoc]⟩
  · obtain ⟨hiz, hempty⟩ := inv_hostMove hmove hi
    exact ⟨hiz, htaken ▸ List.prefix_rfl, hempty ▸ List.nil_suffix⟩

/-- Settles O58, by induction on the events. -/
theorem eventsKeepInvariantsAndTakenRecords : Obligations.EventsKeepInvariantsAndTakenRecords := by
  intro es
  induction es with
  | nil =>
    intro y z hi hout h
    obtain rfl : y = z := Option.some.inj h
    exact ⟨hi, List.prefix_rfl, hout⟩
  | cons e es ih =>
    intro y z hi hout h
    obtain ⟨x, hx, hrest⟩ := System.runEvents_cons h
    obtain ⟨hix, htaken, houtx⟩ := next_keeps_taken hx hi hout
    obtain ⟨hiz, htaken', houtz⟩ := ih x z hix houtx hrest
    exact ⟨hiz, htaken.trans htaken', houtz⟩

end Sys2Proof.Machine

namespace Sys2Proof.Machine

/-! ### The four forms of MOV (rules R122 to R125 and R142) -/

/-- The record of two flag bits and two fields, written out: the polarities say at which flag bits the width is Wide and
`reg` the destination (rules R84, R85 and R110). -/
theorem recordOf_eq (cfg : Config) (d w : Bool) (reg rm : RegCode) : recordOf cfg d w reg rm =
    ⟨.mov, resolve cfg (if cfg.polW = w then .wide else .narrow) (if cfg.polD = d then reg else rm),
      resolve cfg (if cfg.polW = w then .wide else .narrow) (if cfg.polD = d then rm else reg)⟩ := by
  have hwidth : widthOf cfg w = if cfg.polW = w then .wide else .narrow := if_congr eq_comm rfl rfl
  by_cases hd : cfg.polD = d
  · rw [recordOf_of_eq_polD w reg rm hd.symm, hwidth, if_pos hd, if_pos hd]
  · rw [recordOf_of_ne_polD w reg rm (Ne.symm hd), hwidth, if_neg hd, if_neg hd]

/-- The effect of the row that two flag bits select: that record joins `OUT`, `pos` advances by two, nothing else
changes. -/
theorem exec_rowOf_eq (d w : Bool) (mode : ModeField) (reg rm : RegCode) (s : State) :
    exec (rowOf d w mode reg rm) s = .next { s with
      out := s.out ++ [⟨.mov,
        resolve s.cfg (if s.cfg.polW = w then .wide else .narrow) (if s.cfg.polD = d then reg else rm),
        resolve s.cfg (if s.cfg.polW = w then .wide else .narrow) (if s.cfg.polD = d then rm else reg)⟩],
      pos := s.pos + 2 } := by
  rw [exec_rowOf, recordOf_eq]
  rfl

/-- Settles O26: the row of flag bits 0 and 0, neither of which is a default polarity. -/
theorem movRm8R8AppendsItsRecord : Obligations.MovRm8R8AppendsItsRecord :=
  fun s mode reg rm => ⟨exec_rowOf_eq false false mode reg rm s, fun hcfg => by rw [hcfg]; exact ⟨rfl, rfl⟩⟩

/-- Settles O27: the row of flag bits 0 and 1, of which the second is the default `POL_W`. -/
theorem movRm16R16AppendsItsRecord : Obligations.MovRm16R16AppendsItsRecord :=
  fun s mode reg rm => ⟨exec_rowOf_eq false true mode reg rm s, fun hcfg => by rw [hcfg]; exact ⟨rfl, rfl⟩⟩

/-- Settles O28: the row of flag bits 1 and 0, of which the first is the default `POL_D`. -/
theorem movR8Rm8AppendsItsRecord : Obligations.MovR8Rm8AppendsItsRecord :=
  fun s mode reg rm => ⟨exec_rowOf_eq true false mode reg rm s, fun hcfg => by rw [hcfg]; exact ⟨rfl, rfl⟩⟩

/-- Settles O29: the row of flag bits 1 and 1, the two default polarities. -/
theorem movR16Rm16AppendsItsRecord : Obligations.MovR16Rm16AppendsItsRecord :=
  fun s mode reg rm => ⟨exec_rowOf_eq true true mode reg rm s, fun hcfg => by rw [hcfg]; exact ⟨rfl, rfl⟩⟩

/-- Settles O30: every instruction retires one record, and `retire` leaves the other fields. -/
theorem movLeavesEverythingElse : Obligations.MovLeavesEverythingElse := by
  intro i s t h
  obtain ⟨r, hi⟩ := exec_retires i s
  obtain rfl : retire r s = t := Host.Outcome.next.inj (hi.symm.trans h)
  refine ⟨retire_status s r, retire_errOffset s r, retire_mem s r, retire_len s r, retire_cfg s r,
    memRead_congr (retire_mem s r) (retire_len s r), ?_, ?_, retire_pos s r⟩
  · rw [retire_out]
    exact List.prefix_append _ _
  · rw [retire_out, List.length_append, List.length_singleton]

end Sys2Proof.Machine

namespace Sys2Proof.Machine

/-! ### Fixed windows and tables (30_encoding.md, 41_register_resolver.md, 95_test_vectors.md) -/

/-- Settles O11: eight fixed words, run through the decoder. -/
theorem writtenOutWordsDecode : Obligations.WrittenOutWordsDecode :=
  ⟨rfl, rfl, rfl, rfl, rfl, rfl, rfl, rfl⟩

/-- Settles O35: two fixed windows, run through the datapath at each pair of polarities. -/
theorem scenarioUnderEveryPolarity : Obligations.ScenarioUnderEveryPolarity :=
  ⟨rfl, rfl, rfl, rfl, rfl, rfl, rfl, rfl⟩

/-- A packed place is the width flag before the code (rule R21), as a number. -/
theorem packPlace_toNat (p : RegisterPlace) :
    (packPlace p).toNat = 8 * (wideBit (placeWidth p)).toNat + (placeCode p).toNat := by
  cases p <;> rfl

/-- The table of rule R101 lists the codes in order, so a name's code is the one it was resolved from. -/
theorem placeCode_resolve_defaultConfig (w : OperandWidth) (code : RegCode) :
    placeCode (resolve defaultConfig w code) = code := by
  cases w with
  | narrow => revert code; decide
  | wide => revert code; decide

/-- The default table is a bijection (rule R102). -/
theorem wellFormed_defaultConfig : defaultConfig.wellFormed = true := resolverIsBijective.1

/-- Settles O20: the sixteen lookups are read off the table; each packs to the width and the code it was resolved
from. -/
theorem defaultTableIsCanonical : Obligations.DefaultTableIsCanonical := by
  refine ⟨rfl, rfl, fun w code => ?_⟩
  rw [packPlace_toNat, placeWidth_resolve wellFormed_defaultConfig, placeCode_resolve_defaultConfig]
  cases w with
  | narrow => rfl
  | wide => rfl

end Sys2Proof.Machine

namespace Sys2Proof.Machine

/-! ### The bytes and their fields (rules R61, R62 and R88) -/

/-- Settles O55: bytes with a window either decode or fail the opcode match. -/
theorem shortInputIsIncompletePair : Obligations.ShortInputIsIncompletePair := by
  intro cfg bytes
  match bytes with
  | [] => simp [decode]
  | [_] => simp [decode]
  | b1 :: b2 :: rest =>
    by_cases hm : opsel b1 = cfg.opcMov
    · simp [decode, decodeWindow_accept hm]
    · simp [decode, decodeWindow_reject hm]

/-- A byte 2 has three given fields exactly when it is their encoding. -/
theorem fields_eq_iff {b2 : Byte} {mode : ModeField} {reg rm : RegCode} :
    (modeField b2 = mode ∧ regField b2 = reg ∧ rmField b2 = rm) ↔ b2 = encodeSecond mode reg rm := by
  constructor
  · rintro ⟨rfl, rfl, rfl⟩
    exact (encodeSecond_fields b2).symm
  · rintro rfl
    exact encodeSecond_parts mode reg rm

/-- An encoded byte 2 as a number (rule R88). -/
theorem encodeSecond_toNat (mode : ModeField) (reg rm : RegCode) :
    (encodeSecond mode reg rm).toNat = mode.toNat * 64 + reg.toNat * 8 + rm.toNat := by
  revert mode reg rm
  decide

/-- Settles O18: the decoder answers the three fields exactly on their encoding, which is that number. -/
theorem secondByteIsItsThreeFields : Obligations.SecondByteIsItsThreeFields := by
  intro b2 mode reg rm
  rw [secondByteDecoder, Prod.mk.injEq, Prod.mk.injEq, fields_eq_iff, ← BitVec.toNat_inj, encodeSecond_toNat]

/-- At the default selector (decision D1) the opcode match accepts four bytes. -/
theorem opsel_eq_defaultOpcMov_iff (b1 : Byte) : opsel b1 = defaultConfig.opcMov ↔
    b1 = 0x88#8 ∨ b1 = 0x89#8 ∨ b1 = 0x8A#8 ∨ b1 = 0x8B#8 := by
  revert b1
  decide

/-- Some instruction is decoded exactly on a matching selector. -/
theorem exists_decodeWindow_ok_iff {cfg : Config} {b1 b2 : Byte} :
    (∃ i, decodeWindow cfg b1 b2 = .ok i) ↔ opsel b1 = cfg.opcMov := by
  simp [decodeWindow_eq_ok_iff]

/-- A window as a number is byte 1 followed by byte 2 (rule R42). -/
theorem tableFirst_append_tableSecond (w : W16) : tableFirst w ++ tableSecond w = w := by
  rw [tableFirst, tableSecond, BitVec.extractLsb'_append_extractLsb'_eq_extractLsb' (show 8 = 0 + 8 from rfl)]
  exact BitVec.extractLsb'_eq_self

/-- The mask keeps the selector of byte 1 and nothing of byte 2. -/
theorem and_selectorMask_eq_iff (w : W16) :
    w &&& 0xFC00#16 = 0x8800#16 ↔ opsel (tableFirst w) = defaultConfig.opcMov := by
  have hmask : w &&& 0xFC00#16 = (tableFirst w &&& 0xFC#8) ++ (tableSecond w &&& 0#8) := by
    rw [← BitVec.and_append, tableFirst_append_tableSecond]
    rfl
  rw [hmask, BitVec.and_zero]
  generalize tableFirst w = b1
  revert b1
  decide

/-- Settles O10: a window decodes exactly when its selector matches, which is four values of byte 1, and as a number the
value under the mask. -/
theorem fourFirstBytesAreAccepted : Obligations.FourFirstBytesAreAccepted :=
  ⟨fun b1 _ => exists_decodeWindow_ok_iff.trans (opsel_eq_defaultOpcMov_iff b1),
    fun w => exists_decodeWindow_ok_iff.trans (and_selectorMask_eq_iff w).symm⟩

end Sys2Proof.Machine

namespace Sys2Proof.Machine

/-! ### The windows of a record (rules R70 and R126) -/

/-- Each of the two widths is selected by exactly one value of the width bit (rule R85). -/
theorem widthOf_bijective (cfg : Config) : Function.Bijective (widthOf cfg) := by
  refine ⟨fun w w' h => ?_, fun width => ?_⟩
  · unfold widthOf at h
    generalize cfg.polW = p at h
    revert w w' p
    decide
  · cases width with
    | wide => exact ⟨cfg.polW, if_pos rfl⟩
    | narrow => exact ⟨!cfg.polW, if_neg (Bool.not_ne_self _)⟩

section WellFormedTable
variable {cfg : Config} (hwf : cfg.wellFormed = true)
include hwf

/-- Both operands of a record have the width that the width bit selects (rule R126, law (a)). -/
theorem placeWidth_recordOf (d w : Bool) (reg rm : RegCode) :
    placeWidth (recordOf cfg d w reg rm).destination = widthOf cfg w ∧
      placeWidth (recordOf cfg d w reg rm).source = widthOf cfg w := by
  unfold recordOf
  cases directionOf cfg d with
  | regIsDest => exact ⟨placeWidth_resolve hwf _ _, placeWidth_resolve hwf _ _⟩
  | regIsSource => exact ⟨placeWidth_resolve hwf _ _, placeWidth_resolve hwf _ _⟩

theorem recordOf_wellFormed (d w : Bool) (reg rm : RegCode) : (recordOf cfg d w reg rm).wellFormed = true := by
  obtain ⟨hdest, hsource⟩ := placeWidth_recordOf hwf d w reg rm
  rw [DecodedInstruction.wellFormed, hdest, hsource, beq_self_eq_true]

/-- Under a bijective table a name determines the width bit and the code it was resolved from. -/
theorem resolve_widthOf_inj {w w' : Bool} {code code' : RegCode} :
    resolve cfg (widthOf cfg w) code = resolve cfg (widthOf cfg w') code' ↔ w = w' ∧ code = code' := by
  constructor
  · intro h
    obtain ⟨hwidth, hcode⟩ := Prod.mk.inj ((resolve_pair_bijective hwf).1 h)
    exact ⟨(widthOf_bijective cfg).1 hwidth, hcode⟩
  · rintro ⟨rfl, rfl⟩
    rfl

/-- At one direction bit a record determines the width bit and the two fields. -/
theorem recordOf_inj {d w w' : Bool} {reg reg' rm rm' : RegCode} :
    recordOf cfg d w reg rm = recordOf cfg d w' reg' rm' ↔ w = w' ∧ reg = reg' ∧ rm = rm' := by
  by_cases hd : d = cfg.polD
  · simp only [recordOf_of_eq_polD _ _ _ hd, DecodedInstruction.mk.injEq, resolve_widthOf_inj hwf]
    tauto
  · simp only [recordOf_of_ne_polD _ _ _ hd, DecodedInstruction.mk.injEq, resolve_widthOf_inj hwf]
    tauto

/-- Every record with operands of one width is reached at either direction bit. -/
theorem exists_recordOf_eq {r : DecodedInstruction} (hr : r.wellFormed = true) (d : Bool) :
    ∃ w reg rm, recordOf cfg d w reg rm = r := by
  obtain ⟨⟨⟩, dest, source⟩ := r
  have hwidth : placeWidth dest = placeWidth source := beq_iff_eq.mp hr
  obtain ⟨w, hw⟩ := (widthOf_bijective cfg).2 (placeWidth source)
  obtain ⟨cd, rfl⟩ := (placeWidth_eq_iff_exists_resolve hwf _ dest).mp hwidth
  obtain ⟨cs, hcs⟩ := (placeWidth_eq_iff_exists_resolve hwf _ source).mp rfl
  by_cases hd : d = cfg.polD
  · exact ⟨w, cd, cs, by rw [recordOf_of_eq_polD _ _ _ hd, hw, hcs]⟩
  · exact ⟨w, cs, cd, by rw [recordOf_of_ne_polD _ _ _ hd, hw, hcs]⟩

/-- So a record has at each direction bit one width bit and one pair of fields. -/
theorem exists_fields_of_record {r : DecodedInstruction} (hr : r.wellFormed = true) :
    ∃ fields : Bool → Bool × RegCode × RegCode,
      ∀ d w reg rm, recordOf cfg d w reg rm = r ↔ fields d = (w, reg, rm) := by
  choose w reg rm hrecord using exists_recordOf_eq hwf hr
  refine ⟨fun d => (w d, reg d, rm d), fun d w' reg' rm' => ?_⟩
  rw [← hrecord d, eq_comm, recordOf_inj hwf, Prod.mk.injEq, Prod.mk.injEq]

end WellFormedTable

/-- The window with a direction bit and a mode whose width bit and fields are given for each direction bit. -/
def windowOf (cfg : Config) (fields : Bool → Bool × RegCode × RegCode) (x : Bool × ModeField) : Byte × Byte :=
  (encodeFirst cfg x.1 (fields x.1).1, encodeSecond x.2 (fields x.1).2.1 (fields x.1).2.2)

/-- A window shows its direction bit and its mode. -/
theorem windowOf_injective (cfg : Config) (fields : Bool → Bool × RegCode × RegCode) :
    Function.Injective (windowOf cfg fields) := by
  rintro ⟨d, mode⟩ ⟨d', mode'⟩ h
  have hd := congrArg (fun x : Byte × Byte => directionBit x.1) h
  have hmode := congrArg (fun x : Byte × Byte => modeField x.2) h
  simp only [windowOf, directionBit_encodeFirst, modeField_encodeSecond] at hd hmode
  rw [hd, hmode]

/-- A window is one of those exactly when its selector matches and its width bit and fields are the given ones. -/
theorem exists_windowOf_eq_iff {cfg : Config} {fields : Bool → Bool × RegCode × RegCode} {b1 b2 : Byte} :
    (∃ x, windowOf cfg fields x = (b1, b2)) ↔ opsel b1 = cfg.opcMov ∧
      fields (directionBit b1) = (widthBit b1, regField b2, rmField b2) := by
  constructor
  · rintro ⟨⟨d, mode⟩, hx⟩
    obtain ⟨rfl, rfl⟩ := Prod.mk.inj hx
    simp
  · rintro ⟨hm, hfields⟩
    refine ⟨(directionBit b1, modeField b2), ?_⟩
    rw [windowOf, hfields, encodeFirst_fields cfg b1 hm, encodeSecond_fields]

/-- The two direction bits with the four modes. -/
def directionsWithModes : List (Bool × ModeField) :=
  [(false, 0), (false, 1), (false, 2), (false, 3), (true, 0), (true, 1), (true, 2), (true, 3)]

theorem mem_directionsWithModes (x : Bool × ModeField) : x ∈ directionsWithModes := by
  obtain ⟨d, mode⟩ := x
  revert d mode
  decide

/-- Settles O15: the windows of a record are one for each direction bit and mode. -/
theorem everyRecordComesFromEightWindows : Obligations.EveryRecordComesFromEightWindows := by
  intro cfg hwf r hr
  obtain ⟨fields, hfields⟩ := exists_fields_of_record hwf hr
  refine ⟨directionsWithModes.map (windowOf cfg fields), by rw [List.length_map]; rfl,
    List.Nodup.map (windowOf_injective cfg fields) (by decide), fun b1 b2 => ?_⟩
  calc (b1, b2) ∈ directionsWithModes.map (windowOf cfg fields)
      ↔ ∃ x, windowOf cfg fields x = (b1, b2) := by simp [mem_directionsWithModes]
    _ ↔ opsel b1 = cfg.opcMov ∧ recordOf cfg (directionBit b1) (widthBit b1) (regField b2) (rmField b2) = r := by
      rw [exists_windowOf_eq_iff, hfields]
    _ ↔ ∃ m, decodePair cfg b1 b2 = .ok (r, m) := by simp [decodePair_eq_ok_iff]

end Sys2Proof.Machine

namespace Sys2Proof.Machine

/-! ### The laws of the datapath (rule R126) -/

/-- The datapath answers on an encoded window the record and the mode it was encoded from. -/
theorem decodePair_encoded (cfg : Config) (d w : Bool) (mode : ModeField) (reg rm : RegCode) :
    decodePair cfg (encodeFirst cfg d w) (encodeSecond mode reg rm) = .ok (recordOf cfg d w reg rm, mode) :=
  decodePair_eq_ok_iff.mpr ⟨opsel_encodeFirst cfg d w, by simp, modeField_encodeSecond mode reg rm⟩

/-- Settles O32: both operands are resolved at one width; exchanging the fields undoes the flip of the direction bit;
the mode is no part of the record. -/
theorem operandExchangeLaws : Obligations.OperandExchangeLaws := by
  intro cfg b1 b2 r m hwf h
  obtain ⟨hm, rfl, rfl⟩ := decodePair_eq_ok_iff.mp h
  refine ⟨recordOf_wellFormed hwf _ _ _ _, ?_, fun m' => ?_⟩
  · rw [decodePair_xor_directionBit hm, rmField_encodeSecond, regField_encodeSecond, modeField_encodeSecond]
  · rw [decodePair_accept hm, modeField_encodeSecond, regField_encodeSecond, rmField_encodeSecond]

/-- Exclusive or with 1 flips the width bit of byte 1 and keeps its two other fields. -/
theorem fields_xor_widthBit (b1 : Byte) : opsel (b1 ^^^ 1#8) = opsel b1 ∧
    directionBit (b1 ^^^ 1#8) = directionBit b1 ∧ widthBit (b1 ^^^ 1#8) = !widthBit b1 := by
  revert b1
  decide

section DefaultTable
variable {cfg : Config} (htab : cfg.regTab = defaultRegTab)
include htab

/-- Whatever the selector and the polarities, the spec's table is well formed. -/
theorem wellFormed_of_defaultRegTab : cfg.wellFormed = true := by
  rw [Config.wellFormed, htab]
  exact wellFormed_defaultConfig

/-- With the spec's table a name's code is the one it was resolved from. -/
theorem placeCode_resolve (w : OperandWidth) (code : RegCode) : placeCode (resolve cfg w code) = code := by
  have htable : resolve cfg w code = resolve defaultConfig w code := by
    simp only [resolve_eq_getElem, htab]
    rfl
  rw [htable, placeCode_resolve_defaultConfig]

/-- With the spec's table the operands' codes do not depend on the width bit. -/
theorem placeCode_recordOf (d w w' : Bool) (reg rm : RegCode) :
    placeCode (recordOf cfg d w reg rm).destination = placeCode (recordOf cfg d w' reg rm).destination ∧
      placeCode (recordOf cfg d w reg rm).source = placeCode (recordOf cfg d w' reg rm).source := by
  simp only [recordOf_eq, placeCode_resolve htab, and_self]

end DefaultTable

/-- Settles O33: a record's codes come from the fields and its width from the width bit alone; every record with
operands of one width is that of some fields, and the window that encodes them decodes to it. -/
theorem widthBitMovesBothOperands : Obligations.WidthBitMovesBothOperands := by
  intro cfg htab
  have hwf := wellFormed_of_defaultRegTab htab
  refine ⟨fun b1 b2 r m h => ?_, fun r hr => ?_⟩
  · obtain ⟨hm, rfl, rfl⟩ := decodePair_eq_ok_iff.mp h
    obtain ⟨hsel, hd, hw⟩ := fields_xor_widthBit b1
    refine ⟨_, decodePair_accept (hsel.trans hm) b2, ?_⟩
    rw [hd, hw]
    obtain ⟨hdest, hsource⟩ := placeCode_recordOf htab (directionBit b1) (!widthBit b1) (widthBit b1)
      (regField b2) (rmField b2)
    have hflip : widthOf cfg (!widthBit b1) ≠ widthOf cfg (widthBit b1) :=
      (widthOf_bijective cfg).1.ne (Bool.not_ne_self _)
    obtain ⟨hwd, hws⟩ := placeWidth_recordOf hwf (directionBit b1) (widthBit b1) (regField b2) (rmField b2)
    obtain ⟨hwd', hws'⟩ := placeWidth_recordOf hwf (directionBit b1) (!widthBit b1) (regField b2) (rmField b2)
    exact ⟨hdest, hsource, by rwa [hwd', hwd], by rwa [hws', hws]⟩
  · obtain ⟨w, reg, rm, rfl⟩ := exists_recordOf_eq hwf hr false
    exact ⟨_, _, _, decodePair_encoded cfg false w 0 reg rm⟩

end Sys2Proof.Machine

namespace Sys2Proof.Machine

/-! ### The datapath as wires (rules R91, R104, R114 and R128) -/

/-- The wire says whether the direction bit has the value `POL_D`. -/
theorem directionWire_eq_true_iff {cfg : Config} {b1 : Byte} :
    directionWire cfg b1 = true ↔ directionBit b1 = cfg.polD := by
  simp [directionWire, directionBit]

/-- The wire is the flag of the width that the width bit selects. -/
theorem widthWire_eq (cfg : Config) (b1 : Byte) : widthWire cfg b1 = wideBit (widthOf cfg (widthBit b1)) := by
  unfold widthWire widthBit widthOf
  generalize cfg.polW = p, b1.getLsbD 0 = w
  revert p w
  decide

/-- With the spec's table a resolver is wiring alone (rule R104). -/
theorem packPlace_resolve {cfg : Config} (htab : cfg.regTab = defaultRegTab) (width : OperandWidth)
    (code : RegCode) : packPlace (resolve cfg width code) = resolverWire (wideBit width) code := by
  rw [packPlace, placeWidth_resolve (wellFormed_of_defaultRegTab htab), placeCode_resolve htab, resolverWire]

/-- With a matching selector the wires carry the packing of the record of the window's fields, with the mode. -/
theorem datapathWires_accept {cfg : Config} {b1 : Byte} (htab : cfg.regTab = defaultRegTab)
    (hm : opsel b1 = cfg.opcMov) (b2 : Byte) : datapathWires cfg b1 b2 = some (packRecord
      (recordOf cfg (directionBit b1) (widthBit b1) (regField b2) (rmField b2)) (modeField b2)) := by
  rw [datapathWires, matchBit, if_pos (decide_eq_true hm), widthWire_eq]
  by_cases hd : directionBit b1 = cfg.polD
  · rw [recordOf_of_eq_polD _ _ _ hd, packRecord, packPlace_resolve htab, packPlace_resolve htab]
    simp only [directionWire_eq_true_iff.mpr hd, if_true]
    rfl
  · rw [recordOf_of_ne_polD _ _ _ hd, packRecord, packPlace_resolve htab, packPlace_resolve htab]
    simp only [mt directionWire_eq_true_iff.mp hd]
    rfl

/-- With any other they carry no value. -/
theorem datapathWires_reject {cfg : Config} {b1 : Byte} (hm : opsel b1 ≠ cfg.opcMov) (b2 : Byte) :
    datapathWires cfg b1 b2 = none := by
  rw [datapathWires, matchBit, if_neg (by simpa using hm)]

/-- Settles O34: the match decides whether there is a value, and the two multiplexers order the places as the record
does. -/
theorem wiresRealiseDatapath : Obligations.WiresRealiseDatapath := by
  intro cfg b1 b2 htab
  by_cases hm : opsel b1 = cfg.opcMov
  · rw [decodePair_accept hm]
    exact datapathWires_accept htab hm b2
  · rw [decodePair_reject hm]
    exact datapathWires_reject hm b2

/-! ### The end test of a bounded counter (rule R146) -/

/-- With one more bit, adding two to a counter of at least one bit gives the sum of the numbers. -/
theorem toNat_setWidth_succ_add_two {n : Nat} (hn : 0 < n) (pos : BitVec n) :
    (pos.setWidth (n + 1) + 2).toNat = pos.toNat + 2 := by
  have hpos : pos.toNat < 2 ^ n := pos.isLt
  have htwo : 2 ≤ 2 ^ n := Nat.le_self_pow (Nat.ne_of_gt hn) 2
  have hpow : 2 ^ (n + 1) = 2 * 2 ^ n := Nat.pow_succ'
  have hlt : 2 < 2 ^ (n + 1) := by omega
  have hconst : (2 : BitVec (n + 1)).toNat = 2 := Nat.mod_eq_of_lt hlt
  rw [BitVec.toNat_add, BitVec.toNat_setWidth_of_le (Nat.le_succ n), hconst, Nat.mod_eq_of_lt (by omega)]

/-- Settles O47: neither side of the comparison loses a bit. -/
theorem boundedEndTestNeverWraps : Obligations.BoundedEndTestNeverWraps := by
  intro n pos len hn
  rw [endTestOfWidth, BitVec.ult_eq_decide, decide_eq_true_iff, toNat_setWidth_succ_add_two hn,
    BitVec.toNat_setWidth_of_le (Nat.le_succ n)]

end Sys2Proof.Machine

namespace Sys2Proof.Machine

/-! ### A window placed for the next step (notes/assumptions/3.md and 10.md) -/

section PlacedWindow
variable {s : State} (h : s.memWf) (nbits w : Nat)
include h

/-- After the placing, the two bytes at `pos` are the window's and every other one is as before. -/
theorem read_withFetchWord (a : Nat) : Memory.read (s.withFetchWord nbits w).mem a =
    if a = s.pos + 1 then tableSecond (tableWord nbits w)
    else if a = s.pos then tableFirst (tableWord nbits w) else Memory.read s.mem a := by
  obtain ⟨hwf, -⟩ := h
  rw [withFetchWord_mem, read_write _ _ _ (write_wf _ _ _ hwf), read_write _ _ _ hwf]

theorem fetchWindow_withFetchWord : fetchWindow (s.withFetchWord nbits w) =
    some (tableFirst (tableWord nbits w), tableSecond (tableWord nbits w)) := by
  have hwhole : (s.withFetchWord nbits w).pos + 2 ≤ (s.withFetchWord nbits w).len := Nat.le_max_right _ _
  rw [fetchWindow_some hwhole, read_withFetchWord h, read_withFetchWord h, withFetchWord_pos]
  simp

/-- A byte beside the placed window reads as before. -/
theorem memRead_withFetchWord {a : Nat} (h1 : a ≠ s.pos) (h2 : a ≠ s.pos + 1) (ha : a < s.len) :
    (s.withFetchWord nbits w).memRead a 1 = s.memRead a 1 := by
  have hbefore : s.memRead a 1 = some [Memory.read s.mem a] := memRead_one_iff.mpr ⟨ha, rfl⟩
  rw [hbefore, memRead_one_iff, read_withFetchWord h, if_neg h2, if_neg h1]
  exact ⟨Nat.le_trans ha (Nat.le_max_left _ _), rfl⟩

end PlacedWindow

/-- A word of the table decodes to the instruction of its two bytes. -/
theorem decodeTableWord_eq_some_iff {nbits w : Nat} {i : Instr} : decodeTableWord nbits w = some i ↔
    decodeWindow defaultConfig (tableFirst (tableWord nbits w)) (tableSecond (tableWord nbits w)) = .ok i := by
  by_cases hm : opsel (tableFirst (tableWord nbits w)) = defaultConfig.opcMov
  · simp [decodeTableWord, decode, decodeWindow_accept hm]
  · simp [decodeTableWord, decode, decodeWindow_reject hm]

/-- And to none exactly when the selector of its byte 1 does not match. -/
theorem decodeTableWord_eq_none_iff {nbits w : Nat} : decodeTableWord nbits w = none ↔
    opsel (tableFirst (tableWord nbits w)) ≠ defaultConfig.opcMov := by
  rw [← not_iff_not, ← ne_eq, Option.ne_none_iff_exists', not_ne_iff, ← exists_decodeWindow_ok_iff]
  exact exists_congr fun _ => decodeTableWord_eq_some_iff

/-- Settles O54: the placed window is the one fetched, in RUN and at the default constants. -/
theorem placedWindowRunsNext : Obligations.PlacedWindowRunsNext := by
  intro s w h hcfg
  have hr : (s.withFetchWord 16 w).status = .run := withFetchWord_status s 16 w
  have hf := fetchWindow_withFetchWord h 16 w
  have hcfg' : (s.withFetchWord 16 w).cfg = defaultConfig := hcfg
  refine ⟨fun i hi => ?_, fun hnone => ?_, fun a => memRead_withFetchWord h 16 w⟩
  · exact step_of_fetchWindow_decodes hr hf (hcfg'.symm ▸ decodeTableWord_eq_some_iff.mp hi)
  · exact step_of_fetchWindow_reject hr hf (hcfg'.symm ▸ decodeTableWord_eq_none_iff.mp hnone)

end Sys2Proof.Machine
